-- ==== Sys2Proof/Word.lean ====
section
/-! DEFINITION. The widths of the core: 64-bit words, bytes and 32-bit micro-op words (00_scope.md R6,
30_encoding.md R70). All values are unsigned. -/

namespace Sys2Proof

/-- `u64`: a message, working-state, chaining or output word (R6). -/
abbrev Word := BitVec 64

/-- `u8`: a byte of the input or of the digest (R6, R25, R51). -/
abbrev Byte := BitVec 8

/-- One word of the micro-program ROM (R53, R70). -/
abbrev UWord := BitVec 32

end Sys2Proof
end

