-- ==== Sys2Proof/Syntax.lean ====
section
/-! DEFINITION. The nine micro-ops (30_encoding.md R72), one constructor per row of opcode_table.json. -/

namespace Sys2Proof

/-- A micro-op with its operand fields (30_encoding.md R71): `V` indices 0 to 15, `M` indices 0 to 7, and
the 6-bit rotate amount. Which terms are legal is `Instr.wellFormed`. -/
inductive Instr where
  /-- `ROTR vd, vs, n` (R92). -/
  | rotr (vd vs : Fin 16) (n : Fin 64)
  /-- `G a, b, c, d, ix, iy` (R100). -/
  | g (a b c d : Fin 16) (ix iy : Fin 8)
  /-- `MROT` (R110). -/
  | mrot
  /-- `PACK` (R125). -/
  | pack
  /-- `INIT` (R127). -/
  | init
  /-- `FOLD` (R129). -/
  | fold
  /-- `FINAL` (R140). -/
  | final
  /-- `SER` (R142). -/
  | ser
  /-- `HALT` (R157). -/
  | halt
  deriving DecidableEq, Repr

end Sys2Proof
end

