-- ==== Sys2Proof/WellFormed.lean ====
section
/-! DEFINITION. Which micro-op terms are legal: the two operand conditions of 30_encoding.md R74. -/

namespace Sys2Proof

/-- Four pairwise distinct `V` indices (R74 (6), R103). -/
def distinct4 (a b c d : Fin 16) : Bool :=
  a != b && a != c && a != d && b != c && b != d && c != d

/-- A micro-op some word spells: `ROTR` with `n` in 1..63 (R74 (4), R93), `G` with four distinct indices
(R74 (6)); `vd = vs` and `ix = iy` are legal, and the others have no operands. -/
def Instr.wellFormed : Instr → Bool
  | .rotr _ _ n => n != 0
  | .g a b c d _ _ => distinct4 a b c d
  | .mrot | .pack | .init | .fold | .final | .ser | .halt => true

end Sys2Proof
end

