-- ==== Sys2Proof/Decode.lean ====
section
/-! DEFINITION. The decoder of 30_encoding.md R73, total on 32-bit words and rejecting by name, and the
encoder of R72. A micro-op word is fetched whole, so it has no byte order (20_memory.md R53, R55). -/

namespace Sys2Proof

/-- Why a word is illegal (30_encoding.md R74). -/
inductive IllegalReason where
  /-- R74 (1): `op` is 0 or 10 to 15. -/
  | unassignedOp
  /-- R74 (2): a bit of 27:0 is set in format N. -/
  | mbzFormatN
  /-- R74 (3): a bit of 19:6 is set in `ROTR`. -/
  | mbzFormatR
  /-- R74 (4): `ROTR` with `n = 0`. -/
  | zeroAmount
  /-- R74 (5): a bit of 5:0 is set in `G`. -/
  | mbzFormatG
  /-- R74 (6): `G` with two equal indices among `a, b, c, d`. -/
  | aliasedIndices
  deriving DecidableEq, Repr

/-- The result of decoding: a legal micro-op or illegal (R73). -/
inductive Decoded where
  | legal (i : Instr)
  | illegal (r : IllegalReason)
  deriving DecidableEq, Repr

/-- The operation field, bits 31:28 (R70). -/
def opField (w : UWord) : BitVec 4 := w.extractLsb' 28 4

/-- The 4-bit `V` index whose lowest bit is bit `lo` (R71). -/
def vField (w : UWord) (lo : Nat) : Fin 16 := (w.extractLsb' lo 4).toFin

/-- The 3-bit `M` index whose lowest bit is bit `lo` (R71). -/
def mField (w : UWord) (lo : Nat) : Fin 8 := (w.extractLsb' lo 3).toFin

/-- The 6-bit rotate amount, bits 5:0 (R70, R71). -/
def nField (w : UWord) : Fin 64 := (w.extractLsb' 0 6).toFin

/-- Format N: bits 27:0 must be zero (R70, R74 (2)). -/
def decodeN (w : UWord) (i : Instr) : Decoded :=
  if w.extractLsb' 0 28 = 0 then .legal i else .illegal .mbzFormatN

/-- Format R (R70, R73, R74 (3), (4)). -/
def decodeR (w : UWord) : Decoded :=
  if w.extractLsb' 6 14 ≠ 0 then .illegal .mbzFormatR
  else if nField w = 0 then .illegal .zeroAmount
  else .legal (.rotr (vField w 24) (vField w 20) (nField w))

/-- Format G (R70, R73, R74 (5), (6)). -/
def decodeG (w : UWord) : Decoded :=
  if w.extractLsb' 0 6 ≠ 0 then .illegal .mbzFormatG
  else if distinct4 (vField w 24) (vField w 20) (vField w 16) (vField w 12) then
    .legal (.g (vField w 24) (vField w 20) (vField w 16) (vField w 12) (mField w 9) (mField w 6))
  else .illegal .aliasedIndices

/-- The decoder of R73. -/
def decode (w : UWord) : Decoded :=
  match (opField w).toNat with
  | 1 => decodeR w
  | 2 => decodeG w
  | 3 => decodeN w .mrot
  | 4 => decodeN w .pack
  | 5 => decodeN w .init
  | 6 => decodeN w .fold
  | 7 => decodeN w .final
  | 8 => decodeN w .ser
  | 9 => decodeN w .halt
  | _ => .illegal .unassignedOp

/-- A field value placed with its lowest bit at bit `lo` (R72). -/
def place (value lo : Nat) : UWord := BitVec.ofNat 32 value <<< lo

/-- The encoder: the words of R72. -/
def encode : Instr → UWord
  | .rotr vd vs n => 0x10000000#32 ||| place vd 24 ||| place vs 20 ||| place n 0
  | .g a b c d ix iy =>
      0x20000000#32 ||| place a 24 ||| place b 20 ||| place c 16 ||| place d 12 ||| place ix 9 ||| place iy 6
  | .mrot => 0x30000000#32
  | .pack => 0x40000000#32
  | .init => 0x50000000#32
  | .fold => 0x60000000#32
  | .final => 0x70000000#32
  | .ser => 0x80000000#32
  | .halt => 0x90000000#32

/-- The micro-op the decoder reads from the word whose bits are `w`, numbered as opcode_table.json numbers
them (bit 0 least significant). Every micro-op is one 32-bit word (R70), so bits above `nbits` are 0. -/
def decodeTableWord (nbits w : Nat) : Option Instr :=
  match decode (BitVec.ofNat 32 (w % 2 ^ nbits)) with
  | .legal i => some i
  | .illegal _ => none

end Sys2Proof
end

