-- ==== Sys2Proof/Machine/Arith.lean ====
section
/-! DEFINITION. The arithmetic of the core: `add64`, `rotr64` on its domain 1..63, the mixer `Gf`, and the
two byte/word conversions (00_scope.md R10, R11; 20_memory.md R54; 40_rotate.md R90, R93; 41_mixer.md R101). -/

namespace Sys2Proof.Machine

/-- The file of `n` elements whose element `k` is `f k`. -/
def tabulate {α : Type} {n : Nat} (f : Fin n → α) : Vector α n := ⟨⟨(List.finRange n).map f⟩, by simp⟩

/-- A rotate amount: an integer in 1..63 and nothing else (40_rotate.md R93). -/
structure Amount where
  val : Nat
  pos : 1 ≤ val
  le63 : val ≤ 63
  deriving DecidableEq, Repr

/-- The amount a 6-bit field spells; none for 0, which no rule gives a meaning (R93, U2). -/
def Amount.ofField (n : Fin 64) : Option Amount :=
  if h : 1 ≤ n.val then some ⟨n.val, h, Nat.le_of_lt_succ n.isLt⟩ else none

/-- The four amounts of the mixer (41_mixer.md R100, R102 (e)). -/
def amount32 : Amount := ⟨32, by decide, by decide⟩
def amount24 : Amount := ⟨24, by decide, by decide⟩
def amount16 : Amount := ⟨16, by decide, by decide⟩
def amount63 : Amount := ⟨63, by decide, by decide⟩

/-- `add64(x, y) = (x + y) mod 2^64`, the carry dropped (00_scope.md R10). -/
def add64 (x y : Word) : Word := x + y

/-- `rotr64(x, n) = ((x >> n) | (x << (64 - n))) mod 2^64` (40_rotate.md R90), the ROT unit (R94). -/
def rotr64 (x : Word) (n : Amount) : Word := (x >>> n.val) ||| (x <<< (64 - n.val))

/-- The mixer as a pure function of six words (41_mixer.md R101): `(a2, b2, c2, d2)`. -/
def Gf (a0 b0 c0 d0 mx my : Word) : Word × Word × Word × Word :=
  let a1 := add64 (add64 a0 b0) mx
  let d1 := rotr64 (d0 ^^^ a1) amount32
  let c1 := add64 c0 d1
  let b1 := rotr64 (b0 ^^^ c1) amount24
  let a2 := add64 (add64 a1 b1) my
  let d2 := rotr64 (d1 ^^^ a2) amount16
  let c2 := add64 c1 d2
  let b2 := rotr64 (b1 ^^^ c2) amount63
  (a2, b2, c2, d2)

/-- Byte `b` as the value `b * 2^(8k)`. -/
def byteAt (b : Byte) (k : Nat) : Word := b.setWidth 64 <<< (8 * k)

/-- `le64(b0, .., b7)`: eight bytes, `b k` at the `k`-th lowest offset, little-endian (20_memory.md R54). -/
def le64 (b : Fin 8 → Byte) : Word :=
  byteAt (b 0) 0 + byteAt (b 1) 1 + byteAt (b 2) 2 + byteAt (b 3) 3 +
    byteAt (b 4) 4 + byteAt (b 5) 5 + byteAt (b 6) 6 + byteAt (b 7) 7

/-- Byte `k` of a word, `(w >> (8*k)) & 0xFF` (20_memory.md R54). -/
def byteOf (w : Word) (k : Nat) : Byte := (w >>> (8 * k)).setWidth 8

end Sys2Proof.Machine
end

