-- ==== Sys2Proof/Config.lean ====
section
/-! DEFINITION. What an implementation fixes (the parameters `IV`, `UPROG` and the optional switch
`FOLD_USES_SEED`), and the free values the spec leaves open. -/

namespace Sys2Proof

/-- An element of a 64-bit register file that a micro-op can read (10_state.md R21 to R24). -/
inductive Elem where
  /-- `V[i]`, working state (R21). -/
  | v (i : Fin 16)
  /-- `M[j]`, current message ordering (R22). -/
  | m (j : Fin 8)
  /-- `CH[i]`, chaining output (R23). -/
  | ch (i : Fin 8)
  /-- `OUT[i]`, output words (R24). -/
  | out (i : Fin 4)
  deriving DecidableEq, Repr

/-- The parameters of the step relation (00_scope.md R7, R8; 10_state.md R20, R26). They are carried in
State so that every statement quantifies over them; no step changes them (log 4, log 5, log 6). -/
structure Config where
  /-- `IV[0..3]`, four immutable 64-bit constants (R7, R26). -/
  iv : Vector Word 4
  /-- `UPROG`, the content of the micro-program ROM; `NUOP` is its length (R8, R53). -/
  uprog : List UWord
  /-- `FOLD_USES_SEED` (43_codec_compressor.md R130; D13): normative value `false`. -/
  foldUsesSeed : Bool
  deriving DecidableEq, Repr

/-- The hardware's own `IV`, whose values no source gives (R7, N1, D4 OPEN): a free value. -/
opaque Config.hardwareIV : Vector Word 4

/-- The bits of an element of a 64-bit file that holds none of the spec's values (10_state.md R32: "real registers hold
some bits"), by the lifetime counter `epoch` and the element: a free value. DESIGN CHOICE, log 2, log 3. -/
opaque Config.unwritten : Nat → Elem → Word

/-- The same for the bytes of `DG`. DESIGN CHOICE, log 2, log 3. -/
opaque Config.unwrittenByte : Nat → Fin 32 → Byte

end Sys2Proof
end

