-- ==== Sys2Proof/Machine/Program.lean ====
section
/-! DEFINITION. The content of the micro-program ROM of this hardware (45_sequencer.md R158) and the
pseudo-ops of 30_encoding.md R76, each a name for a fixed sequence of micro-ops. -/

namespace Sys2Proof.Machine

/-- The eight `G` words of a round, rows 1 to 8 of the table of 42_permutation.md R112. -/
def roundWords : List UWord :=
  [0x2048C040#32, 0x2159D4C0#32, 0x226AE940#32, 0x237BFDC0#32,
   0x205AF280#32, 0x216BC700#32, 0x2278DB80#32, 0x2349EE00#32]

/-- `HASH_PROG`, the 50 words of R158: `PACK`, `INIT`, five rounds with an `MROT` after each of the first
four, `FOLD`, `FINAL`, `SER`, `HALT`. -/
def hashProg : List UWord :=
  [0x40000000#32, 0x50000000#32] ++
  roundWords ++ [0x30000000#32] ++ roundWords ++ [0x30000000#32] ++ roundWords ++ [0x30000000#32] ++
  roundWords ++ [0x30000000#32] ++ roundWords ++
  [0x60000000#32, 0x70000000#32, 0x80000000#32, 0x90000000#32]

/-- `COLSTEP` (R76, R113). -/
def colstepOps : List Instr :=
  [.g 0 4 8 12 0 1, .g 1 5 9 13 2 3, .g 2 6 10 14 4 5, .g 3 7 11 15 6 7]

/-- `DIAGSTEP` (R76, R114). -/
def diagstepOps : List Instr :=
  [.g 0 5 10 15 1 2, .g 1 6 11 12 3 4, .g 2 7 8 13 5 6, .g 3 4 9 14 7 0]

/-- `ROUND` (R76, R115): the eight mixer applications, without the rotation (C6). -/
def roundOps : List Instr := colstepOps ++ diagstepOps

/-- `PERMUTE` (R76, R116): five rounds, no rotation after the fifth. -/
def permuteOps : List Instr :=
  roundOps ++ [.mrot] ++ roundOps ++ [.mrot] ++ roundOps ++ [.mrot] ++ roundOps ++ [.mrot] ++ roundOps

/-- `COMPRESS` (R76, R131). -/
def compressOps : List Instr := [.init] ++ permuteOps ++ [.fold]

/-- `FINALIZE` (R76, R143). -/
def finalizeOps : List Instr := [.final, .ser]

/-- `HASH` (R76), the micro-ops `HASH_PROG` spells. -/
def hashOps : List Instr := [.pack] ++ compressOps ++ finalizeOps ++ [.halt]

end Sys2Proof.Machine
end

