-- ==== Sys2Proof/Machine/State.lean ====
section
/-! DEFINITION. The state of one core instance (10_state.md R20 to R37), as plain data, and the state
after reset. -/

namespace Sys2Proof.Machine

/-- `STATUS` (10_state.md R30). -/
inductive Status where
  /-- No call has been made since reset. -/
  | idle
  /-- A call is in progress; the sequencer has a step. -/
  | busy
  /-- The last call ran to its `HALT`. -/
  | done
  /-- The last call hit an illegal micro-op; sticky until reset. -/
  | error
  deriving DecidableEq, Repr

/-- `ECAUSE` (10_state.md R31): exactly two values. -/
inductive Ecause where
  | none
  | illegalUop
  deriving DecidableEq, Repr

/-- What the host does at one boundary between micro-ops (45_sequencer.md R150, R151). -/
inductive HostMove where
  /-- It gives `START` with a byte sequence (R152, R153). -/
  | start (data : List Byte)
  /-- It gives `RESET` (70_reset_and_hazards.md R190). -/
  | reset
  /-- It does nothing, so the sequencer takes its step if it has one. -/
  | pass
  deriving DecidableEq, Repr

/-- An element of a register file. It always has bits; R32 (10_state.md) tells whether it holds a value. -/
inductive Reg (α : Type) where
  /-- It holds the value `x` (R32). -/
  | held (x : α)
  /-- It holds no value (R32): its bits `x` are none the spec gives it (log 1, log 2). -/
  | free (x : α)
  deriving DecidableEq, Repr

/-- The state of one core instance. -/
structure State where
  /-- `V[0..15]`, working state (R21). -/
  v : Vector (Reg Word) 16
  /-- `M[0..7]`, current message ordering (R22). -/
  m : Vector (Reg Word) 8
  /-- `CH[0..7]`, chaining output (R23). -/
  ch : Vector (Reg Word) 8
  /-- `OUT[0..3]`, output words (R24). -/
  out : Vector (Reg Word) 4
  /-- `DG[0..31]`, the digest, which is the byte space `DGS` (R25, 20_memory.md R52). -/
  dg : Vector (Reg Byte) 32
  /-- `DIN`, the latched input (R27, 20_memory.md R51). -/
  din : List Byte
  /-- `UPC`, CR2, the micro-program counter (R28). -/
  upc : BitVec 6
  /-- `STATUS`, CR0 (R30). -/
  status : Status
  /-- `ECAUSE`, CR1 (R31). -/
  ecause : Ecause
  /-- The parameters `IV`, `UPROG`, `FOLD_USES_SEED`; no step changes them (R7, R8, R20, R26, R53). -/
  cfg : Config
  /-- The model's own counter of lifetimes of the elements that hold no value: it selects their free bits (log 3). -/
  epoch : Nat
  /-- The model's own list of what the host is still going to do, oldest first (log 7). -/
  host : List HostMove
  deriving DecidableEq, Repr

/-- Why the machine stops. -/
inductive Fault where
  /-- Raised by `restStep` (Ops.lean) in `STATUS = ERROR` when the host has no move left: the core is stuck, the state
  is never final, and only `RESET` could leave it (60_exceptions.md R172, U9). Safe: it stops where the
  spec gives no further step. No micro-op's meaning raises it. -/
  | errorState
  deriving DecidableEq, Repr

/-- Why a step is given no meaning. -/
inductive Refusal where
  /-- A micro-op without a meaning yet; `exec`'s arms only, and none of them today. Safe. -/
  | notModelled (mnemonic : String)
  deriving DecidableEq, Repr

/-- The state right after reset (10_state.md R37): every element holds no value and has free bits ("unspecified
content", log 2), `DIN` is empty, `UPC` 0, `STATUS` IDLE, `ECAUSE` NONE; the parameters are the hardware's (R7, R8,
D13). The model's own fields: `epoch` 0 and a host that does nothing (log 3, log 7). -/
def State.reset : State where
  v := tabulate fun i => .free (Config.unwritten 0 (.v i))
  m := tabulate fun j => .free (Config.unwritten 0 (.m j))
  ch := tabulate fun i => .free (Config.unwritten 0 (.ch i))
  out := tabulate fun i => .free (Config.unwritten 0 (.out i))
  dg := tabulate fun k => .free (Config.unwrittenByte 0 k)
  din := []
  upc := 0
  status := .idle
  ecause := .none
  cfg := { iv := Config.hardwareIV, uprog := hashProg, foldUsesSeed := false }
  epoch := 0
  host := []

end Sys2Proof.Machine
end

