-- ==== Sys2Proof/Machine/Flags.lean ====
section
/-! DEFINITION. The host-readable encodings of the control registers CR0 and CR1 (10_state.md R30, R31).
There are no flags, condition codes or predicates to compute (R29). -/

namespace Sys2Proof.Machine

/-- The 2-bit encoding of `STATUS` (R30). -/
def Status.code : Status → BitVec 2
  | .idle => 0
  | .busy => 1
  | .done => 2
  | .error => 3

/-- The 2-bit encoding of `ECAUSE`; 2 and 3 are never produced (R31). -/
def Ecause.code : Ecause → BitVec 2
  | .none => 0
  | .illegalUop => 1

end Sys2Proof.Machine
end

