-- ==== Sys2Proof/Machine/Ops.lean ====
section
/-! DEFINITION. The named operations over the state: reads and writes of the register files, of `DIN` and
`DGS`, the micro-program counter, taking `IllegalUop`, and the host interface. -/

namespace Sys2Proof.Machine

/-! An element of a register file. -/

/-- The bits of an element. -/
def Reg.bits {α : Type} : Reg α → α
  | .held x => x
  | .free x => x

/-- Whether an element holds a value (10_state.md R32). -/
def Reg.isHeld {α : Type} : Reg α → Bool
  | .held _ => true
  | .free _ => false

/-- What a write leaves: the value `x` where the micro-op had a value in every source, and otherwise bits that are
none of the spec's values, because the spec gives that step no result (R32, log 1). -/
def Reg.written {α : Type} (ok : Bool) (x : α) : Reg α := if ok then .held x else .free x

/-! Reads: the bits of the element. -/

/-- Read of `V[i]` (10_state.md R21). -/
def State.readV (s : State) (i : Fin 16) : Word := s.v[i].bits

/-- Read of `M[j]` (10_state.md R22). -/
def State.readM (s : State) (j : Fin 8) : Word := s.m[j].bits

/-- Read of `CH[i]` (10_state.md R23). -/
def State.readCH (s : State) (i : Fin 8) : Word := s.ch[i].bits

/-- Read of `OUT[i]` (10_state.md R24). -/
def State.readOUT (s : State) (i : Fin 4) : Word := s.out[i].bits

/-- `MemRead(DIN, k, 1)`: the byte at offset `k`, none at and beyond `DIN.len` (20_memory.md R51). -/
def State.readDIN (s : State) (k : Nat) : Option Byte := s.din[k]?

/-- Whether an element holds a value (10_state.md R32). -/
def State.holds (s : State) : Elem → Bool
  | .v i => s.v[i].isHeld
  | .m j => s.m[j].isHeld
  | .ch i => s.ch[i].isHeld
  | .out i => s.out[i].isHeld

/-! Writes. `ok` tells whether every source of the micro-op held a value; the element then holds one too (00_scope.md,
notation; log 1 where it is false). -/

/-- `V[i] <- w`. -/
def State.writeV (s : State) (ok : Bool) (i : Fin 16) (w : Word) : State :=
  { s with v := s.v.set i (.written ok w) }

/-- All sixteen of `V` written at once. -/
def State.loadV (s : State) (ok : Bool) (f : Fin 16 → Word) : State :=
  { s with v := tabulate fun i => .written ok (f i) }

/-- All eight of `M` written at once. -/
def State.loadM (s : State) (ok : Bool) (f : Fin 8 → Word) : State :=
  { s with m := tabulate fun j => .written ok (f j) }

/-- All eight of `CH` written at once. -/
def State.loadCH (s : State) (ok : Bool) (f : Fin 8 → Word) : State :=
  { s with ch := tabulate fun i => .written ok (f i) }

/-- All four of `OUT` written at once. -/
def State.loadOUT (s : State) (ok : Bool) (f : Fin 4 → Word) : State :=
  { s with out := tabulate fun i => .written ok (f i) }

/-- `MemWrite(DGS, k, 1, f k)` for `k` in 0..31, all in the one step (20_memory.md R52, R57). -/
def State.loadDG (s : State) (ok : Bool) (f : Fin 32 → Byte) : State :=
  { s with dg := tabulate fun k => .written ok (f k) }

/-- `upc <- upc + 1` (10_state.md R28). Six bits; it cannot wrap while `NUOP <= 63` (R8, log 12). -/
def State.advance (s : State) : State := { s with upc := s.upc + 1 }

/-- `STATUS <- x` (10_state.md R30). -/
def State.setStatus (s : State) (x : Status) : State := { s with status := x }

/-- Taking `IllegalUop` (60_exceptions.md R172): the cause and the status are written, everything else,
`UPC` included, is unchanged. There is no return from it but `RESET` (R177). -/
def State.takeIllegalUop (s : State) : State := { s with ecause := .illegalUop, status := .error }

/-- The micro-op fetch: `UROM[upc]`, none at and past `NUOP` (20_memory.md R53, 45_sequencer.md R155). -/
def State.fetchUop (s : State) : Option UWord := s.cfg.uprog[s.upc.toNat]?

/-! The host interface (45_sequencer.md R150 to R154). -/

/-- Every element of `V`, `M`, `CH`, `OUT`, `DG` to no value (R33, R152): free bits of a new lifetime (log 3). -/
def State.clearDatapath (s : State) : State :=
  { s with
    v := tabulate fun i => .free (Config.unwritten (s.epoch + 1) (.v i))
    m := tabulate fun j => .free (Config.unwritten (s.epoch + 1) (.m j))
    ch := tabulate fun i => .free (Config.unwritten (s.epoch + 1) (.ch i))
    out := tabulate fun i => .free (Config.unwritten (s.epoch + 1) (.out i))
    dg := tabulate fun k => .free (Config.unwrittenByte (s.epoch + 1) k)
    epoch := s.epoch + 1 }

/-- `START(data)`: accepted in `IDLE` and `DONE` (R152), ignored in `BUSY` and `ERROR` (R153). -/
def State.hostStart (s : State) (data : List Byte) : State :=
  match s.status with
  | .idle | .done =>
      { s.clearDatapath with din := data, ecause := .none, upc := 0, status := .busy }
  | .busy | .error => s

/-- `RESET`, in any `STATUS` (70_reset_and_hazards.md R190): the state of 10_state.md R37; the parameters
are not affected, the model's own fields go on (log 17). -/
def State.hostReset (s : State) : State :=
  { s.clearDatapath with din := [], upc := 0, status := .idle, ecause := .none }

/-- The host's reads of `STATUS`, `ECAUSE` and `UPC`, permitted at any time (20_memory.md R61). -/
def State.hostReadSTATUS (s : State) : BitVec 2 := s.status.code
def State.hostReadECAUSE (s : State) : BitVec 2 := s.ecause.code
def State.hostReadUPC (s : State) : BitVec 6 := s.upc

/-- The 32 digest bytes when every one of them holds a value. -/
def State.digest? (s : State) : Option (Vector Byte 32) :=
  if (List.finRange 32).all fun k => s.dg[k].isHeld then some (tabulate fun k => s.dg[k].bits) else none

/-- The host's read of `DG[0..31]` (20_memory.md R61, 45_sequencer.md R154, R157): given a value only in
`DONE`, and only when `SER` has written values to the bytes. It is no step of the machine. -/
def State.hostReadDG (s : State) : Option (Vector Byte 32) :=
  match s.status with
  | .done => s.digest?
  | .idle | .busy | .error => none

/-- A step in which neither the host nor the sequencer has anything to do: `IDLE` and `DONE` are resting
states (R155, log 8), `ERROR` with no host move left is stuck (60_exceptions.md R172, U9, log 9). -/
def State.restStep (s : State) : Host.Outcome State Fault Refusal :=
  match s.status, s.host with
  | .error, [] => .fault .errorState
  | _, _ => .next s

end Sys2Proof.Machine
end

