-- ==== Sys2Proof/Machine/Operands.lean ====
section
/-! DEFINITION. The operand forms: which elements each micro-op reads (the access matrix of 10_state.md
R36), whether all of them hold a value, the bytes of the padded input block, and a register as a numbered part of
its file. -/

namespace Sys2Proof.Machine

/-- The elements a micro-op reads (R36). `FOLD` reads all of `V` (the note of R36); `PACK` reads only `DIN`,
`HALT` nothing. -/
def reads : Instr → List Elem
  | .rotr _ vs _ => [.v vs]
  | .g a b c d ix iy => [.v a, .v b, .v c, .v d, .m ix, .m iy]
  | .mrot => (List.finRange 8).map .m
  | .pack => []
  | .init => (List.finRange 8).map .m
  | .fold => (List.finRange 16).map .v
  | .final => (List.finRange 8).map .ch
  | .ser => (List.finRange 4).map .out
  | .halt => []

/-- Whether every element a micro-op reads holds a value. Where one does not, R32 gives the step no meaning (a
modelling rule, R32); the micro-op runs on the elements' bits, and what it writes holds no value (log 1). -/
def State.readable (s : State) (i : Instr) : Bool := (reads i).all s.holds

/-- The mixer's two message operands (30_encoding.md R71): entries of the current ordering. -/
def State.messageOperand (s : State) (ix : Fin 8) : Word := s.readM ix

/-- `blk[k]` of `PACK`: the input byte at offset `k`, zero at and beyond `DIN.len`
(43_codec_compressor.md R125). -/
def paddedByte (data : List Byte) (k : Nat) : Byte := (data[k]?).getD 0

/-- Message word `j` of the padded block, from offsets `8j .. 8j+7` (R125, 20_memory.md R54). -/
def packWord (data : List Byte) (j : Fin 8) : Word := le64 fun k => paddedByte data (8 * j + k)

/-- Byte `k` of the serialised output words: `DG[8i + k]` is byte `k` of `OUT[i]` (44_finalizer.md R142). -/
def digestByte (out : Fin 4 → Word) (k : Fin 32) : Byte := byteOf (out ⟨k / 8, by omega⟩) (k % 8)

end Sys2Proof.Machine
end

