-- ==== Sys2Proof/Machine/Codec.lean ====
section
/-! DEFINITION. The block codec and compressor's micro-ops: `PACK`, `INIT`, `FOLD`
(43_codec_compressor.md R125, R127, R129, R130). -/

namespace Sys2Proof.Machine

/-- `PACK` (R125): the first 64 bytes of `DIN`, zero-padded on the right, as eight little-endian words.
It reads no register. -/
def execPack (s : State) : Host.Outcome State Fault Refusal :=
  .next (s.loadM true (packWord s.din)).advance

/-- The working state `INIT` builds (R127): `IV` twice, then the eight message words. -/
def initWord (iv : Vector Word 4) (msg : Fin 8 → Word) (i : Fin 16) : Word :=
  if h : i.val < 8 then iv[i.val % 4] else msg ⟨i.val - 8, by omega⟩

/-- `INIT` (R127): reads the current content of `M`. -/
def execInit (s : State) : Host.Outcome State Fault Refusal :=
  .next (s.loadV (s.readable .init) (initWord s.cfg.iv s.readM)).advance

/-- The chaining output of a working state (R129). `FOLD_USES_SEED` selects the reading of "original" that
the spec does not take (R130, C3, D13); its normative value is `false` (log 6). -/
def foldWord (cfg : Config) (v : Fin 16 → Word) (i : Fin 8) : Word :=
  if h : i.val < 4 then v ⟨i.val, by omega⟩ ^^^ v ⟨8 + i.val, by omega⟩
  else v ⟨i.val, by omega⟩ ^^^
    (if cfg.foldUsesSeed then cfg.iv[i.val - 4] else v ⟨i.val - 4, by omega⟩)

/-- `FOLD` (R129): `V` is read only. -/
def execFold (s : State) : Host.Outcome State Fault Refusal :=
  .next (s.loadCH (s.readable .fold) (foldWord s.cfg s.readV)).advance

end Sys2Proof.Machine
end

