-- ==== Sys2Proof/Machine/Finalizer.lean ====
section
/-! DEFINITION. The digest finalizer's micro-ops: `FINAL`, `SER` (44_finalizer.md R140, R142). -/

namespace Sys2Proof.Machine

/-- Output word `i` of a chaining output (R140). -/
def finalWord (ch : Fin 8 → Word) (i : Fin 4) : Word := ch ⟨i.val, by omega⟩ ^^^ ch ⟨i.val + 4, by omega⟩

/-- `FINAL` (R140). -/
def execFinal (s : State) : Host.Outcome State Fault Refusal :=
  .next (s.loadOUT (s.readable .final) (finalWord s.readCH)).advance

/-- `SER` (R142): all 32 digest bytes in the one step. -/
def execSer (s : State) : Host.Outcome State Fault Refusal :=
  .next (s.loadDG (s.readable .ser) (digestByte s.readOUT)).advance

end Sys2Proof.Machine
end

