-- ==== Sys2Proof/Machine/Halt.lean ====
section
/-! DEFINITION. The sequencer's own micro-op, `HALT` (45_sequencer.md R157). -/

namespace Sys2Proof.Machine

/-- `HALT` (R157): `STATUS <- DONE`; `UPC` and the datapath are not touched. -/
def execHalt (s : State) : Host.Outcome State Fault Refusal := .next (s.setStatus .done)

end Sys2Proof.Machine
end

