-- ==== Sys2Proof/Machine/Mix.lean ====
section
/-! DEFINITION. The MIX unit's micro-op, `G` (41_mixer.md R100, R104). -/

namespace Sys2Proof.Machine

/-- The eight steps of R100 "in exact order", each reading what the earlier ones wrote (R192). -/
def State.mix (s : State) (ok : Bool) (a b c d : Fin 16) (mx my : Word) : State :=
  let s := s.writeV ok a (add64 (add64 (s.readV a) (s.readV b)) mx)
  let s := s.writeV ok d (rotr64 (s.readV d ^^^ s.readV a) amount32)
  let s := s.writeV ok c (add64 (s.readV c) (s.readV d))
  let s := s.writeV ok b (rotr64 (s.readV b ^^^ s.readV c) amount24)
  let s := s.writeV ok a (add64 (add64 (s.readV a) (s.readV b)) my)
  let s := s.writeV ok d (rotr64 (s.readV d ^^^ s.readV a) amount16)
  let s := s.writeV ok c (add64 (s.readV c) (s.readV d))
  s.writeV ok b (rotr64 (s.readV b ^^^ s.readV c) amount63)

/-- `G a, b, c, d, ix, iy` (R100): one atomic step (20_memory.md R57). A term with two equal indices has no
datapath meaning (R103) and is spelled by no legal word (R74 (6)): it takes `IllegalUop` (log 10). -/
def execG (a b c d : Fin 16) (ix iy : Fin 8) (s : State) : Host.Outcome State Fault Refusal :=
  if distinct4 a b c d then
    .next (s.mix (s.readable (.g a b c d ix iy)) a b c d (s.messageOperand ix) (s.messageOperand iy)).advance
  else .next s.takeIllegalUop

end Sys2Proof.Machine
end

