-- ==== Sys2Proof/Machine/Perm.lean ====
section
/-! DEFINITION. The permutation engine's own micro-op, `MROT` (42_permutation.md R110). -/

namespace Sys2Proof.Machine

/-- `MROT` (R110): `M[j] <- old M[(j + 1) mod 8]`, all reads before any write. -/
def execMrot (s : State) : Host.Outcome State Fault Refusal :=
  .next (s.loadM (s.readable .mrot) fun j => s.readM (j + 1)).advance

end Sys2Proof.Machine
end

