-- ==== Sys2Proof/Machine/Rot.lean ====
section
/-! DEFINITION. The ROT unit's micro-op, `ROTR` (40_rotate.md R92, R94). -/

namespace Sys2Proof.Machine

/-- `ROTR vd, vs, n` (R92). A term with `n = 0` is spelled by no legal word (R74 (4)): it takes `IllegalUop`
(log 10). -/
def execRotr (vd vs : Fin 16) (n : Fin 64) (s : State) : Host.Outcome State Fault Refusal :=
  match Amount.ofField n with
  | some k => .next (s.writeV (s.readable (.rotr vd vs n)) vd (rotr64 (s.readV vs) k)).advance
  | none => .next s.takeIllegalUop

end Sys2Proof.Machine
end

