-- ==== Sys2Proof/Machine/Dispatch.lean ====
section
/-! DEFINITION. One arm per micro-op (30_encoding.md R72). -/

namespace Sys2Proof.Machine

def exec (i : Instr) (s : State) : Host.Outcome State Fault Refusal :=
  match i with
  | .rotr vd vs n => Sys2Proof.Machine.execRotr vd vs n s
  | .g a b c d ix iy => Sys2Proof.Machine.execG a b c d ix iy s
  | .mrot => Sys2Proof.Machine.execMrot s
  | .pack => Sys2Proof.Machine.execPack s
  | .init => Sys2Proof.Machine.execInit s
  | .fold => Sys2Proof.Machine.execFold s
  | .final => Sys2Proof.Machine.execFinal s
  | .ser => Sys2Proof.Machine.execSer s
  | .halt => Sys2Proof.Machine.execHalt s

end Sys2Proof.Machine
end

