-- ==== Sys2Proof/Machine/Sequencer.lean ====
section
/-! DEFINITION. The sequencer's step (45_sequencer.md R155), what the host does at a boundary, and the
placing of a word where the next step fetches. -/

namespace Sys2Proof.Machine

/-- The sequencer's step in `BUSY` (R155): the fetch bound, then decode legality (60_exceptions.md R173), then
the micro-op. Where R155 refuses a micro-op that reads an element holding no value, it runs on the element's bits (log 1). -/
def sequencerStep (s : State) : Host.Outcome State Fault Refusal :=
  match s.fetchUop with
  | none => .next s.takeIllegalUop
  | some w =>
    match decode w with
    | .illegal _ => .next s.takeIllegalUop
    | .legal i => exec i s

/-- The core left to itself: a step exactly when `STATUS = BUSY` (R155). -/
def coreStep (s : State) : Host.Outcome State Fault Refusal :=
  match s.status with
  | .busy => sequencerStep s
  | .idle | .done | .error => s.restStep

/-- One boundary and what follows it: the host's next move is taken off its list; `START` and `RESET` are a
step of their own, otherwise the core goes on (R150, R151, log 7). -/
def boundaryStep (s : State) : Host.Outcome State Fault Refusal :=
  match s.host with
  | [] => coreStep s
  | .pass :: rest => coreStep { s with host := rest }
  | .start data :: rest => .next (State.hostStart { s with host := rest } data)
  | .reset :: rest => .next (State.hostReset { s with host := rest })

/-- The list `xs` with `x` at index `k`, zero words before it where `xs` is shorter. -/
def placeAt (xs : List UWord) (k : Nat) (x : UWord) : List UWord :=
  xs.take k ++ List.replicate (k - xs.length) 0#32 ++ x :: xs.drop (k + 1)

/-- `s` with the word `w` in the ROM at `UPC`, the call in progress and no host move due (log 16). -/
def State.withUopDue (s : State) (w : UWord) : State :=
  { s with
    cfg := { s.cfg with uprog := placeAt s.cfg.uprog s.upc.toNat w }
    status := .busy
    host := [] }

end Sys2Proof.Machine
end

