-- ==== Sys2Proof/Machine/Step.lean ====
section
/-! DEFINITION. The step of the machine, and the placing of an instruction where it fetches. -/

namespace Sys2Proof.Machine

/-- One step (45_sequencer.md R155 with the host interface of R150 to R154). -/
def step (s : State) : Host.Outcome State Fault Refusal := boundaryStep s

/-- `s` with the word whose bits are `w` (numbered as opcode_table.json numbers them) where `step` fetches
its next micro-op, and the sequencer in `BUSY` so that it does (log 16). -/
def State.withFetchWord (s : State) (nbits w : Nat) : State :=
  s.withUopDue (BitVec.ofNat 32 (w % 2 ^ nbits))

end Sys2Proof.Machine
end

