-- ==== Sys2Proof/Machine/HashFn.lean ====
section
/-! DEFINITION. The function the core computes, `hash(data)` (45_sequencer.md R160), written over words and
bytes alone, without the machine. -/

namespace Sys2Proof.Machine

/-- One mixer application of the index patterns of a round (42_permutation.md R112). -/
structure MixRow where
  a : Fin 16
  b : Fin 16
  c : Fin 16
  d : Fin 16
  ix : Fin 8
  iy : Fin 8
  deriving DecidableEq, Repr

/-- The eight rows of R112 (and of R160), in execution order. -/
def mixRows : List MixRow :=
  [⟨0, 4, 8, 12, 0, 1⟩, ⟨1, 5, 9, 13, 2, 3⟩, ⟨2, 6, 10, 14, 4, 5⟩, ⟨3, 7, 11, 15, 6, 7⟩,
   ⟨0, 5, 10, 15, 1, 2⟩, ⟨1, 6, 11, 12, 3, 4⟩, ⟨2, 7, 8, 13, 5, 6⟩, ⟨3, 4, 9, 14, 7, 0⟩]

/-- `(v[a], v[b], v[c], v[d]) = Gf(v[a], v[b], v[c], v[d], mx, my)` (R101, R160). -/
def applyGf (v : Vector Word 16) (a b c d : Fin 16) (mx my : Word) : Vector Word 16 :=
  let r := Gf v[a] v[b] v[c] v[d] mx my
  (((v.set a r.1).set b r.2.1).set c r.2.2.1).set d r.2.2.2

/-- Row `row` in the round with offset `r` (round number less one): message words `mb[(ix + r) mod 8]` and
`mb[(iy + r) mod 8]` (R116, R160). -/
def applyRow (mb : Fin 8 → Word) (r : Fin 8) (v : Vector Word 16) (row : MixRow) : Vector Word 16 :=
  applyGf v row.a row.b row.c row.d (mb (row.ix + r)) (mb (row.iy + r))

/-- One round: the eight rows in order (R115). -/
def applyRound (mb : Fin 8 → Word) (v : Vector Word 16) (r : Fin 8) : Vector Word 16 :=
  mixRows.foldl (applyRow mb r) v

/-- The five rounds (R116). -/
def permuteFn (mb : Fin 8 → Word) (v : Vector Word 16) : Vector Word 16 :=
  [0, 1, 2, 3, 4].foldl (applyRound mb) v

/-- The compressor: the chaining output of a message block (43_codec_compressor.md R131). -/
def chainFn (cfg : Config) (mb : Fin 8 → Word) : Fin 8 → Word :=
  let v := permuteFn mb (tabulate (initWord cfg.iv mb))
  foldWord cfg fun i => v[i]

/-- The finalizer: the 32 digest bytes of a chaining output (44_finalizer.md R143). -/
def finalizeFn (ch : Fin 8 → Word) : Vector Byte 32 := tabulate (digestByte (finalWord ch))

/-- `hash(data)` (R160), for the parameters `IV` and `FOLD_USES_SEED` (normatively `false`) of `cfg`. -/
def hashFn (cfg : Config) (data : List Byte) : Vector Byte 32 := finalizeFn (chainFn cfg (packWord data))

end Sys2Proof.Machine
end

