-- ==== Sys2Proof/Safety.lean ====
section
/-! DEFINITION. The terms claims use: the micro-op due, when the spec refuses it, what the spec says of a state, the
invariants of the machine and of the machine running its own micro-program, and runs. -/

namespace Sys2Proof.Machine

/-- The micro-op a legal fetch at `UPC` gives. -/
def State.due? (s : State) : Option Instr :=
  match s.fetchUop with
  | none => none
  | some w =>
    match decode w with
    | .legal i => some i
    | .illegal _ => none

/-- `w` is the word the next step fetches: a call is in progress, the host does nothing, and `w` stands in the
ROM at `UPC` (45_sequencer.md R155). -/
def State.fetches (s : State) (w : UWord) : Prop :=
  s.status = .busy ∧ s.host = [] ∧ s.cfg.uprog[s.upc.toNat]? = some w

/-- An element of a 64-bit register file (10_state.md R32). -/
def State.element (s : State) : Elem → Reg Word
  | .v i => s.v[i]
  | .m j => s.m[j]
  | .ch i => s.ch[i]
  | .out i => s.out[i]

/-- The condition under which the spec refuses the micro-op `i`, that is gives the step no meaning: it reads an element
that holds no value (10_state.md R32, 45_sequencer.md R155). -/
def specRefuses (i : Instr) (s : State) : Prop := ∃ e ∈ reads i, s.holds e = false

/-- All elements of a register file hold a value. -/
def allHeld {α : Type} {n : Nat} (file : Vector (Reg α) n) : Prop := ∀ k : Fin n, file[k].isHeld = true

/-- No element of a register file holds a value. -/
def noneHeld {α : Type} {n : Nat} (file : Vector (Reg α) n) : Prop := ∀ k : Fin n, file[k].isHeld = false

/-- What the spec says of an element: the value it holds, or none (the option per element of R32). -/
def Reg.value? {α : Type} : Reg α → Option α
  | .held x => some x
  | .free _ => none

/-- What the spec says of a register file. -/
def fileValues {α : Type} {n : Nat} (file : Vector (Reg α) n) : Vector (Option α) n :=
  tabulate fun k => file[k].value?

/-- Two states of which the spec says the same: equal but for the bits of elements that hold no value and for the
model's counter that selects them (log 3). -/
structure State.SameToSpec (s t : State) : Prop where
  v : fileValues s.v = fileValues t.v
  m : fileValues s.m = fileValues t.m
  ch : fileValues s.ch = fileValues t.ch
  out : fileValues s.out = fileValues t.out
  dg : fileValues s.dg = fileValues t.dg
  din : s.din = t.din
  upc : s.upc = t.upc
  status : s.status = t.status
  ecause : s.ecause = t.ecause
  cfg : s.cfg = t.cfg
  host : s.host = t.host

/-- The invariant of every core: `1 <= NUOP <= 63` (R8), `UPC <= NUOP` (R28), `ECAUSE` says ILLEGAL_UOP exactly
in `ERROR` (R31), and the files written whole (`M`, `CH`, `OUT`, `DG`) are written whole or not at all (R36). -/
structure State.Inv (s : State) : Prop where
  nuop_pos : 1 ≤ s.cfg.uprog.length
  nuop_le : s.cfg.uprog.length ≤ 63
  upc_le : s.upc.toNat ≤ s.cfg.uprog.length
  ecause_iff : s.ecause = .illegalUop ↔ s.status = .error
  m_whole : allHeld s.m ∨ noneHeld s.m
  ch_whole : allHeld s.ch ∨ noneHeld s.ch
  out_whole : allHeld s.out ∨ noneHeld s.out
  dg_whole : allHeld s.dg ∨ noneHeld s.dg

/-- The invariant of the hardware, that is of the machine whose ROM holds `HASH_PROG` (R8, R159): it is never in
`ERROR`, `UPC` names one of the 50 words, and at every index of a call the files the rest of the call reads
hold values: `M` from index 1, `V` from 2, `CH` from 47, `OUT` from 48, `DG` from 49. -/
structure State.HashInv (s : State) : Prop where
  rom : s.cfg.uprog = hashProg
  noError : s.status ≠ .error
  noCause : s.ecause = .none
  upc_lt : s.upc.toNat < 50
  done_at : s.status = .done → s.upc = 49
  m_held : s.status ≠ .idle → 1 ≤ s.upc.toNat → allHeld s.m
  v_held : s.status ≠ .idle → 2 ≤ s.upc.toNat → allHeld s.v
  ch_held : s.status ≠ .idle → 47 ≤ s.upc.toNat → allHeld s.ch
  out_held : s.status ≠ .idle → 48 ≤ s.upc.toNat → allHeld s.out
  dg_held : s.status ≠ .idle → 49 ≤ s.upc.toNat → allHeld s.dg

/-- `k` steps of the machine. -/
def run (k : Nat) (s : State) : Host.Outcome State Fault Refusal := Sys2Proof.core.run k s

/-- Micro-ops executed one after another, each from the state the one before it left (20_memory.md R60): the
meaning of a pseudo-op (30_encoding.md R76). -/
def execAll : List Instr → State → Host.Outcome State Fault Refusal
  | [], s => .next s
  | i :: rest, s =>
    match exec i s with
    | .next t => execAll rest t
    | .fault r => .fault r
    | .refused r => .refused r

end Sys2Proof.Machine
end

