-- ==== Sys2Proof/Certificates/Slice0/Obligations.lean ====
section
/-! DEFINITION. The statements for the provers. Each docstring names the rules it rests on; the model's own
choices are named by their log entry. -/

open Sys2Proof Sys2Proof.Machine

/-! ### Encoding -/

/-- One word of every micro-op, written out from the encoding of 30_encoding.md R70 and R72, decodes to it. -/
def Obligations.SampleWordsDecode : Prop :=
  decode 0x10100001#32 = .legal (.rotr 0 1 1) ∧
  decode 0x1FF0003F#32 = .legal (.rotr 15 15 63) ∧
  decode 0x2349EE00#32 = .legal (.g 3 4 9 14 7 0) ∧
  decode 0x2F0E1D00#32 = .legal (.g 15 0 14 1 6 4) ∧
  decode 0x30000000#32 = .legal .mrot ∧
  decode 0x40000000#32 = .legal .pack ∧
  decode 0x50000000#32 = .legal .init ∧
  decode 0x60000000#32 = .legal .fold ∧
  decode 0x70000000#32 = .legal .final ∧
  decode 0x80000000#32 = .legal .ser ∧
  decode 0x90000000#32 = .legal .halt

/-- 30_encoding.md R73: `decode(encode(u)) = u` for every legal `u`, with every operand at every value. -/
def Obligations.DecodeOfEncode : Prop :=
  ∀ i : Instr, i.wellFormed = true → decode (encode i) = .legal i

/-- 30_encoding.md R73: `encode(decode(W)) = W` for every word that decodes to a legal micro-op; and only legal
terms are decoded. -/
def Obligations.EncodeOfDecode : Prop :=
  ∀ (w : UWord) (i : Instr), decode w = .legal i → encode i = w ∧ i.wellFormed = true

/-- 30_encoding.md R74: a word is illegal exactly when one of its six conditions holds; fetching it raises
`IllegalUop`; `ix = iy` and `vd = vs` are legal; the rule's examples. -/
def Obligations.IllegalWordsExactly : Prop :=
  (∀ w : UWord, (∃ r, decode w = .illegal r) ↔
    ((w.extractLsb' 28 4 = 0 ∨ 10 ≤ (w.extractLsb' 28 4).toNat) ∨
     (3 ≤ (w.extractLsb' 28 4).toNat ∧ (w.extractLsb' 28 4).toNat ≤ 9 ∧ w.extractLsb' 0 28 ≠ 0) ∨
     (w.extractLsb' 28 4 = 1 ∧ w.extractLsb' 6 14 ≠ 0) ∨
     (w.extractLsb' 28 4 = 1 ∧ w.extractLsb' 0 6 = 0) ∨
     (w.extractLsb' 28 4 = 2 ∧ w.extractLsb' 0 6 ≠ 0) ∨
     (w.extractLsb' 28 4 = 2 ∧ ∃ p ∈ [24, 20, 16, 12], ∃ q ∈ [24, 20, 16, 12],
       p ≠ q ∧ w.extractLsb' p 4 = w.extractLsb' q 4))) ∧
  (∀ (s : State) (w : UWord) (r : IllegalReason), s.fetches w → decode w = .illegal r →
    step s = .next { s with ecause := .illegalUop, status := .error }) ∧
  (∀ w ∈ [0x00000000#32, 0xFFFFFFFF#32, 0x10100000#32, 0x10100040#32, 0x2008C040#32, 0x2048C041#32,
      0x30000001#32, 0xA0000000#32], ∃ r, decode w = .illegal r) ∧
  decode 0x1010003F#32 = .legal (.rotr 0 1 63) ∧
  (∀ (vd : Fin 16) (n : Fin 64), n ≠ 0 → decode (encode (.rotr vd vd n)) = .legal (.rotr vd vd n)) ∧
  (∀ (a b c d : Fin 16) (ix : Fin 8), distinct4 a b c d = true →
    decode (encode (.g a b c d ix ix)) = .legal (.g a b c d ix ix))

/-! ### The step -/

/-- 45_sequencer.md R155: in `BUSY` the step is the micro-op the word at `UPC` decodes to, and nothing else
happens around it. That this is so too where the micro-op reads an element holding no value, where R155 refuses
the step, is the model's choice (log 1). A host move that is `pass` is first taken off the model's own list
(log 7). -/
def Obligations.StepRunsDecodedInstruction : Prop :=
  ∀ (s : State) (w : UWord) (i : Instr), s.status = .busy → s.cfg.uprog[s.upc.toNat]? = some w →
    decode w = .legal i →
    (s.host = [] → step s = exec i s) ∧
    (∀ rest, s.host = .pass :: rest → step s = exec i { s with host := rest })

/-- 60_exceptions.md R172: taking `IllegalUop` writes `ECAUSE` and `STATUS` and nothing else, in one step, for an
illegal word and for a fetch past the end; `ERROR` is sticky: no later step but a `RESET` changes anything
of the core; `DG` is not readable in it. That the model's list of host moves loses its head at such a step is the model's
choice (log 7). The entry with a `pass` due is `TakingIllegalUopAfterPass`. -/
def Obligations.TakingIllegalUop : Prop :=
  (∀ s : State, s.status = .busy → s.host = [] →
    (s.cfg.uprog[s.upc.toNat]? = none ∨
      ∃ w r, s.cfg.uprog[s.upc.toNat]? = some w ∧ decode w = .illegal r) →
    step s = .next { s with ecause := .illegalUop, status := .error }) ∧
  (∀ s t : State, s.status = .error → (∀ rest, s.host ≠ .reset :: rest) → step s = .next t →
    t = { s with host := s.host.tail }) ∧
  (∀ s : State, s.status = .error → s.hostReadDG = none)

/-- 60_exceptions.md R172 at a boundary where the host's next move is a `pass`: the move is taken off the model's own
list (the model's choice, log 7), and the step takes `IllegalUop` as with no move due, for an illegal word and for a
fetch past the end. -/
def Obligations.TakingIllegalUopAfterPass : Prop :=
  ∀ (s : State) (rest : List HostMove), s.status = .busy → s.host = .pass :: rest →
    (s.cfg.uprog[s.upc.toNat]? = none ∨
      ∃ w r, s.cfg.uprog[s.upc.toNat]? = some w ∧ decode w = .illegal r) →
    step s = .next { s with ecause := .illegalUop, status := .error, host := rest }

/-- 60_exceptions.md R171: the fetch at `UPC = NUOP` raises `IllegalUop` with cause code 1 and `UPC = NUOP` recorded. -/
def Obligations.FetchPastTheEndFaults : Prop :=
  ∀ s : State, s.status = .busy → s.host = [] → s.upc.toNat = s.cfg.uprog.length →
    ∃ t, step s = .next t ∧ t.hostReadECAUSE = 1 ∧ t.hostReadSTATUS = 3 ∧
      t.hostReadUPC.toNat = s.cfg.uprog.length ∧
      t = { s with ecause := .illegalUop, status := .error }

/-- 45_sequencer.md R155 with 10_state.md R32 and 60_exceptions.md R173: in `BUSY` the step takes `IllegalUop` first,
whatever the registers hold, and completes as the micro-op due where the spec does not refuse it. Where the spec does
refuse it, because it reads an element holding no value, the step goes on and gives the spec's state nothing: every
element that holds a value after it held the same value before (the model's choice, log 1). -/
def Obligations.StepAndTheSpecsRefusal : Prop :=
  (∀ s : State, s.status = .busy → s.host = [] → s.due? = none →
    step s = .next { s with ecause := .illegalUop, status := .error }) ∧
  (∀ (s : State) (i : Instr), s.status = .busy → s.host = [] → s.due? = some i → ¬ specRefuses i s →
    ∃ t, step s = .next t ∧ exec i s = .next t) ∧
  (∀ (s : State) (i : Instr), s.status = .busy → s.host = [] → s.due? = some i → specRefuses i s →
    ∃ t, step s = .next t ∧ exec i s = .next t ∧
      (∀ (e : Elem) (x : Word), t.element e = .held x → s.element e = .held x) ∧
      (∀ (k : Fin 32) (b : Byte), t.dg[k] = .held b → s.dg[k] = .held b))

/-! ### The nine micro-ops -/

/-- 40_rotate.md R92: `ROTR vd, vs, n` writes `rotr64(V[vs], n)` to `V[vd]`, advances `UPC` and changes nothing
else, `vd = vs` included; its word; when the word is illegal; when the spec refuses it; the corner cases; the
worked example. -/
def Obligations.RotrRotatesRegister : Prop :=
  (∀ (vd vs : Fin 16) (n : Fin 64) (k : Amount) (x : Word) (s : State), n.val = k.val → s.v[vs] = .held x →
    exec (.rotr vd vs n) s = .next { s with v := s.v.set vd (.held (rotr64 x k)), upc := s.upc + 1 }) ∧
  (∀ (vd vs : Fin 16) (n : Fin 64), encode (.rotr vd vs n) =
    0x10000000#32 ||| (BitVec.ofNat 32 vd <<< 24) ||| (BitVec.ofNat 32 vs <<< 20) ||| BitVec.ofNat 32 n) ∧
  (∀ (s : State) (w : UWord), s.fetches w → opField w = 1 →
    (w.extractLsb' 0 6 = 0 ∨ w.extractLsb' 6 14 ≠ 0) → step s = .next s.takeIllegalUop) ∧
  (∀ (vd vs : Fin 16) (n : Fin 64) (s : State), n ≠ 0 →
    (specRefuses (.rotr vd vs n) s ↔ s.v[vs].isHeld = false)) ∧
  (∀ x : Word, rotr64 x amount63 = (x <<< 1) ||| (x >>> 63) ∧
    rotr64 x amount32 = x.extractLsb' 0 32 ++ x.extractLsb' 32 32) ∧
  (∀ k : Amount, rotr64 0 k = 0 ∧ rotr64 (BitVec.allOnes 64) k = BitVec.allOnes 64) ∧
  (∀ s : State, s.v[1] = .held 0xFEDCBA9876543210#64 → s.fetches 0x10100001#32 →
    ∃ t, step s = .next t ∧ t.v[0] = .held 0x7F6E5D4C3B2A1908#64)

/-- 41_mixer.md R100: `G` performs the eight steps in exact order on `V[a], V[b], V[c], V[d]` with `M[ix]`,
`M[iy]`, in one step, and changes nothing else but `UPC`; its word; when the word is illegal; when the spec
refuses it; the worked example. -/
def Obligations.GMixesFourRegisters : Prop :=
  (∀ (a b c d : Fin 16) (ix iy : Fin 8) (s : State) (va vb vc vd mx my : Word), distinct4 a b c d = true →
    s.v[a] = .held va → s.v[b] = .held vb → s.v[c] = .held vc → s.v[d] = .held vd →
    s.m[ix] = .held mx → s.m[iy] = .held my →
    let a1 := va + vb + mx
    let d1 := rotr64 (vd ^^^ a1) amount32
    let c1 := vc + d1
    let b1 := rotr64 (vb ^^^ c1) amount24
    let a2 := a1 + b1 + my
    let d2 := rotr64 (d1 ^^^ a2) amount16
    let c2 := c1 + d2
    let b2 := rotr64 (b1 ^^^ c2) amount63
    exec (.g a b c d ix iy) s = .next { s with
      v := (((s.v.set a (.held a2)).set b (.held b2)).set c (.held c2)).set d (.held d2)
      upc := s.upc + 1 }) ∧
  (∀ (a b c d : Fin 16) (ix iy : Fin 8), encode (.g a b c d ix iy) =
    0x20000000#32 ||| (BitVec.ofNat 32 a <<< 24) ||| (BitVec.ofNat 32 b <<< 20) ||| (BitVec.ofNat 32 c <<< 16) |||
      (BitVec.ofNat 32 d <<< 12) ||| (BitVec.ofNat 32 ix <<< 9) ||| (BitVec.ofNat 32 iy <<< 6)) ∧
  (∀ (s : State) (w : UWord), s.fetches w → opField w = 2 →
    (w.extractLsb' 0 6 ≠ 0 ∨ ∃ p ∈ [24, 20, 16, 12], ∃ q ∈ [24, 20, 16, 12],
      p ≠ q ∧ w.extractLsb' p 4 = w.extractLsb' q 4) → step s = .next s.takeIllegalUop) ∧
  (∀ (a b c d : Fin 16) (ix iy : Fin 8) (s : State), distinct4 a b c d = true →
    (specRefuses (.g a b c d ix iy) s ↔
      (s.v[a].isHeld = false ∨ s.v[b].isHeld = false ∨ s.v[c].isHeld = false ∨ s.v[d].isHeld = false ∨
        s.m[ix].isHeld = false ∨ s.m[iy].isHeld = false))) ∧
  Gf 1 0 0 0 0 0 =
    (0x0000000000000101#64, 0x0202000200020200#64, 0x0101000100010000#64, 0x0101000000010000#64)

/-- 42_permutation.md R110: `MROT` puts the word at position `j + 1` (mod 8) at position `j`, advances `UPC` and
changes nothing else; its word; when the word is illegal; when the spec refuses it; the corner cases. -/
def Obligations.MrotRotatesOrdering : Prop :=
  (∀ (s : State) (w : Fin 8 → Word), (∀ j : Fin 8, s.m[j] = .held (w j)) →
    ∃ t, exec .mrot s = .next t ∧
      (∀ j : Fin 8, t.m[j] = .held (w ⟨(j.val + 1) % 8, Nat.mod_lt _ (by decide)⟩)) ∧
      t = { s with m := t.m, upc := s.upc + 1 } ∧
      ((∀ j, w j = w 0) → t.m = s.m)) ∧
  encode .mrot = 0x30000000#32 ∧
  (∀ (s : State) (w : UWord), s.fetches w → opField w = 3 → w.extractLsb' 0 28 ≠ 0 →
    step s = .next s.takeIllegalUop) ∧
  (∀ s : State, specRefuses .mrot s ↔ ∃ j : Fin 8, s.m[j].isHeld = false) ∧
  (∀ s : State, allHeld s.m → execAll (List.replicate 8 .mrot) s = .next { s with upc := s.upc + 8 })

/-- 43_codec_compressor.md R125: `PACK` writes the first 64 input bytes, zero-padded on the right, as eight
little-endian words into `M`, advances `UPC` and changes nothing else; its word; when the word is illegal; the spec
never refuses it; the worked example. -/
def Obligations.PackFormsMessageBlock : Prop :=
  (∀ s : State, ∃ t, exec .pack s = .next t ∧
    (∀ j : Fin 8, ∃ x : Word, t.m[j] = .held x ∧
      x.toNat = ∑ k ∈ Finset.range 8, (if h : 8 * j.val + k < s.din.length then s.din[8 * j.val + k].toNat else 0) * 2 ^ (8 * k)) ∧
    t = { s with m := t.m, upc := s.upc + 1 }) ∧
  encode .pack = 0x40000000#32 ∧
  (∀ (s : State) (w : UWord), s.fetches w → opField w = 4 → w.extractLsb' 0 28 ≠ 0 →
    step s = .next s.takeIllegalUop) ∧
  (∀ s : State, ¬ specRefuses .pack s) ∧
  (∀ s : State, s.din = [0x61#8, 0x62#8, 0x63#8] →
    ∃ t, exec .pack s = .next t ∧ t.m = #v[Reg.held 0x636261#64, Reg.held 0, Reg.held 0, Reg.held 0, Reg.held 0, Reg.held 0, Reg.held 0, Reg.held 0])

/-- 43_codec_compressor.md R127: `INIT` writes `IV` to `V[0..3]` and to `V[4..7]` and the current content of `M` to
`V[8..15]`, advances `UPC` and changes nothing else; its word; when the word is illegal; when the spec refuses it; the
worked example. -/
def Obligations.InitBuildsWorkingState : Prop :=
  (∀ (s : State) (w : Fin 8 → Word), (∀ j : Fin 8, s.m[j] = .held (w j)) →
    ∃ t, exec .init s = .next t ∧
      (∀ i : Fin 4, t.v[i.val]'(by omega) = .held s.cfg.iv[i] ∧ t.v[4 + i.val]'(by omega) = .held s.cfg.iv[i]) ∧
      (∀ j : Fin 8, t.v[8 + j.val]'(by omega) = .held (w j)) ∧
      t = { s with v := t.v, upc := s.upc + 1 }) ∧
  encode .init = 0x50000000#32 ∧
  (∀ (s : State) (w : UWord), s.fetches w → opField w = 5 → w.extractLsb' 0 28 ≠ 0 →
    step s = .next s.takeIllegalUop) ∧
  (∀ s : State, specRefuses .init s ↔ ∃ j : Fin 8, s.m[j].isHeld = false) ∧
  (∀ s : State, s.cfg.iv = #v[0x0123456789ABCDEF#64, 0xFEDCBA9876543210#64, 0x0F1E2D3C4B5A6978#64, 0x8796A5B4C3D2E1F0#64] →
    s.m = #v[Reg.held 0x636261#64, Reg.held 0, Reg.held 0, Reg.held 0, Reg.held 0, Reg.held 0, Reg.held 0, Reg.held 0] →
    ∃ t, exec .init s = .next t ∧
      t.v = #v[Reg.held 0x0123456789ABCDEF#64, Reg.held 0xFEDCBA9876543210#64, Reg.held 0x0F1E2D3C4B5A6978#64, Reg.held 0x8796A5B4C3D2E1F0#64,
        Reg.held 0x0123456789ABCDEF#64, Reg.held 0xFEDCBA9876543210#64, Reg.held 0x0F1E2D3C4B5A6978#64, Reg.held 0x8796A5B4C3D2E1F0#64,
        Reg.held 0x636261#64, Reg.held 0, Reg.held 0, Reg.held 0, Reg.held 0, Reg.held 0, Reg.held 0, Reg.held 0])

/-- 43_codec_compressor.md R129, with the normative `FOLD_USES_SEED = false` (R130): `FOLD` writes
`CH[i] = V[i] XOR V[8+i]` and `CH[4+i] = V[4+i] XOR V[i]` from the state before the step, advances `UPC` and changes
nothing else; its word; when the word is illegal; when the spec refuses it; the corner case; the worked example. -/
def Obligations.FoldFormsChainingOutput : Prop :=
  (∀ (s : State) (w : Fin 16 → Word), s.cfg.foldUsesSeed = false → (∀ i : Fin 16, s.v[i] = .held (w i)) →
    ∃ t, exec .fold s = .next t ∧
      (∀ i : Fin 4, t.ch[i.val]'(by omega) = .held (w ⟨i.val, by omega⟩ ^^^ w ⟨8 + i.val, by omega⟩) ∧
        t.ch[4 + i.val]'(by omega) = .held (w ⟨4 + i.val, by omega⟩ ^^^ w ⟨i.val, by omega⟩)) ∧
      (∀ i : Fin 4, ∃ x y, t.ch[i.val]'(by omega) = .held x ∧ t.ch[4 + i.val]'(by omega) = .held y ∧
        x ^^^ y = w ⟨8 + i.val, by omega⟩ ^^^ w ⟨4 + i.val, by omega⟩) ∧
      t = { s with ch := t.ch, upc := s.upc + 1 }) ∧
  encode .fold = 0x60000000#32 ∧
  (∀ (s : State) (w : UWord), s.fetches w → opField w = 6 → w.extractLsb' 0 28 ≠ 0 →
    step s = .next s.takeIllegalUop) ∧
  (∀ s : State, specRefuses .fold s ↔ ∃ i : Fin 16, s.v[i].isHeld = false) ∧
  (∀ s : State, s.cfg.foldUsesSeed = false → allHeld s.v → s.v[0] = .held 0x9DD4E1CBAE3D9812#64 →
    s.v[4] = .held 0x1FB4DAB8973B9494#64 → s.v[8] = .held 0xAB3FE39BB61CBFBE#64 →
    ∃ t, exec .fold s = .next t ∧ t.ch[0] = .held 0x36EB0250182127AC#64 ∧ t.ch[4] = .held 0x82603B7339060C86#64)

/-- 43_codec_compressor.md R130, the reading the spec does not take, kept behind the optional switch
(D13, log 6): with `FOLD_USES_SEED = true` the second half is `CH[4+i] = V[4+i] XOR IV[i]`, the first unchanged. -/
def Obligations.FoldUnderTheSeedReading : Prop :=
  ∀ (s : State) (w : Fin 16 → Word), s.cfg.foldUsesSeed = true → (∀ i : Fin 16, s.v[i] = .held (w i)) →
    ∃ t, exec .fold s = .next t ∧
      (∀ i : Fin 4, t.ch[i.val]'(by omega) = .held (w ⟨i.val, by omega⟩ ^^^ w ⟨8 + i.val, by omega⟩) ∧
        t.ch[4 + i.val]'(by omega) = .held (w ⟨4 + i.val, by omega⟩ ^^^ s.cfg.iv[i])) ∧
      t = { s with ch := t.ch, upc := s.upc + 1 }

/-- 44_finalizer.md R140: `FINAL` writes `OUT[i] = CH[i] XOR CH[i+4]`, advances `UPC` and changes nothing else; its
word; when the word is illegal; when the spec refuses it; the corner case; the worked example. -/
def Obligations.FinalFormsOutputWords : Prop :=
  (∀ (s : State) (w : Fin 8 → Word), (∀ i : Fin 8, s.ch[i] = .held (w i)) →
    ∃ t, exec .final s = .next t ∧
      (∀ i : Fin 4, t.out[i] = .held (w ⟨i.val, by omega⟩ ^^^ w ⟨i.val + 4, by omega⟩) ∧
        (w ⟨i.val, by omega⟩ = w ⟨i.val + 4, by omega⟩ → t.out[i] = .held 0)) ∧
      t = { s with out := t.out, upc := s.upc + 1 }) ∧
  encode .final = 0x70000000#32 ∧
  (∀ (s : State) (w : UWord), s.fetches w → opField w = 7 → w.extractLsb' 0 28 ≠ 0 →
    step s = .next s.takeIllegalUop) ∧
  (∀ s : State, specRefuses .final s ↔ ∃ i : Fin 8, s.ch[i].isHeld = false) ∧
  (∀ s : State, allHeld s.ch → s.ch[0] = .held 0x36EB0250182127AC#64 → s.ch[4] = .held 0x82603B7339060C86#64 →
    ∃ t, exec .final s = .next t ∧ t.out[0] = .held 0xB48B392321272B2A#64)

/-- 44_finalizer.md R142: `SER` writes byte `k` of `OUT[i]`, `(OUT[i] >> 8k) & 0xFF`, to `DG[8i+k]`, all 32 in the one
step, advances `UPC` and changes nothing else; its word; when the word is illegal; when the spec refuses it; the
worked example. -/
def Obligations.SerSerialisesDigest : Prop :=
  (∀ (s : State) (w : Fin 4 → Word), (∀ i : Fin 4, s.out[i] = .held (w i)) →
    ∃ t, exec .ser s = .next t ∧
      (∀ (i : Fin 4) (k : Fin 8), ∃ b : Byte, t.dg[8 * i.val + k.val]'(by omega) = .held b ∧
        b.toNat = (w i).toNat / 2 ^ (8 * k.val) % 256) ∧
      t = { s with dg := t.dg, upc := s.upc + 1 }) ∧
  encode .ser = 0x80000000#32 ∧
  (∀ (s : State) (w : UWord), s.fetches w → opField w = 8 → w.extractLsb' 0 28 ≠ 0 →
    step s = .next s.takeIllegalUop) ∧
  (∀ s : State, specRefuses .ser s ↔ ∃ i : Fin 4, s.out[i].isHeld = false) ∧
  (∀ s : State, allHeld s.out → s.out[0] = .held 0xB48B392321272B2A#64 →
    ∃ t, exec .ser s = .next t ∧
      (List.range 8).map (fun k => t.dg[k]?) =
        [some (.held 0x2A#8), some (.held 0x2B#8), some (.held 0x27#8), some (.held 0x21#8), some (.held 0x23#8),
         some (.held 0x39#8), some (.held 0x8B#8), some (.held 0xB4#8)])

/-- 45_sequencer.md R157: `HALT` sets `STATUS` to `DONE` and changes nothing else, `UPC` included; its word; when the
word is illegal; the spec never refuses it; after it the sequencer has no step, which the model's `step` answers with the
same state (the model's choice, log 8); halting without `SER` leaves the host's read of `DG` without a value, and so does a
single byte that holds no value (deduced, log 13). -/
def Obligations.HaltEndsCall : Prop :=
  (∀ s : State, exec .halt s = .next { s with status := .done }) ∧
  encode .halt = 0x90000000#32 ∧
  (∀ (s : State) (w : UWord), s.fetches w → opField w = 9 → w.extractLsb' 0 28 ≠ 0 →
    step s = .next s.takeIllegalUop) ∧
  (∀ s : State, ¬ specRefuses .halt s) ∧
  (∀ s : State, s.host = [] → step { s with status := .done } = .next { s with status := .done }) ∧
  (∀ (s : State) (k : Fin 32), s.dg[k].isHeld = false →
    State.hostReadDG { s with status := .done } = none) ∧
  (∀ s : State, s.fetches 0x90000000#32 → s.upc = 49 →
    ∃ t, step s = .next t ∧ t.status = .done ∧ t.upc = 49)

/-- The model's choice (log 1): where the spec refuses a micro-op whose source holds no value (R32), the model's runs it on
the element's bits, and what it writes holds no value either; every other effect is as its rule says. Stated for all
states: a read gives the bits, and what is written holds a value exactly where every source did. -/
def Obligations.NoValueReadsRunOnFreeValues : Prop :=
  (∀ (s : State) (i : Instr), s.readable i = true ↔ ¬ specRefuses i s) ∧
  (∀ (s : State) (e : Elem),
    (match e with
      | .v i => s.readV i | .m j => s.readM j | .ch i => s.readCH i | .out i => s.readOUT i) = (s.element e).bits) ∧
  (∀ (s : State) (vd vs : Fin 16) (n : Fin 64) (k : Amount), n.val = k.val →
    exec (.rotr vd vs n) s =
      .next { s with v := s.v.set vd (.written (s.readable (.rotr vd vs n)) (rotr64 (s.readV vs) k)), upc := s.upc + 1 }) ∧
  (∀ (s : State) (a b c d : Fin 16) (ix iy : Fin 8), distinct4 a b c d = true →
    let r := Gf (s.readV a) (s.readV b) (s.readV c) (s.readV d) (s.readM ix) (s.readM iy)
    let ok := s.readable (.g a b c d ix iy)
    exec (.g a b c d ix iy) s =
      .next { s with
        v := (((s.v.set a (.written ok r.1)).set b (.written ok r.2.1)).set c (.written ok r.2.2.1)).set d
          (.written ok r.2.2.2)
        upc := s.upc + 1 }) ∧
  (∀ s : State, ∃ t, exec .mrot s = .next t ∧
    (∀ j : Fin 8, t.m[j] = .written (s.readable .mrot) (s.readM (j + 1))) ∧
    t = { s with m := t.m, upc := s.upc + 1 }) ∧
  (∀ s : State, ∃ t, exec .init s = .next t ∧
    (∀ i : Fin 16, t.v[i] = .written (s.readable .init) (initWord s.cfg.iv s.readM i)) ∧
    t = { s with v := t.v, upc := s.upc + 1 }) ∧
  (∀ s : State, ∃ t, exec .fold s = .next t ∧
    (∀ i : Fin 8, t.ch[i] = .written (s.readable .fold) (foldWord s.cfg s.readV i)) ∧
    t = { s with ch := t.ch, upc := s.upc + 1 }) ∧
  (∀ s : State, ∃ t, exec .final s = .next t ∧
    (∀ i : Fin 4, t.out[i] = .written (s.readable .final) (finalWord s.readCH i)) ∧
    t = { s with out := t.out, upc := s.upc + 1 }) ∧
  (∀ s : State, ∃ t, exec .ser s = .next t ∧
    (∀ k : Fin 32, t.dg[k] = .written (s.readable .ser) (digestByte s.readOUT k)) ∧
    t = { s with dg := t.dg, upc := s.upc + 1 })

/-- Every legal micro-op completes in every state: its next state is one further on in `UPC`, with `STATUS` and
`ECAUSE` unchanged, or, for `HALT`, `DONE` at the same `UPC` (10_state.md R28; 00_scope.md R12; 60_exceptions.md R173, "A
legal word never faults"). That it completes too where it reads an element holding no value, which R32 and R155
refuse, is the model's choice (log 1). -/
def Obligations.LegalMicroOpsComplete : Prop :=
  ∀ (i : Instr) (s : State), i.wellFormed = true →
    ∃ t, exec i s = .next t ∧ t.ecause = s.ecause ∧
      (i ≠ .halt → t.upc = s.upc + 1 ∧ t.status = s.status) ∧
      (i = .halt → t.upc = s.upc ∧ t.status = .done)

/-- The frame of all nine micro-ops, the write columns of the access matrix (10_state.md R36): what a legal
micro-op leaves unchanged; of the model's own fields, `epoch` (log 3) and `host` (log 7) too. -/
def Obligations.AccessMatrixWrites : Prop :=
  ∀ (i : Instr) (s t : State), i.wellFormed = true → exec i s = .next t →
    t.din = s.din ∧ t.cfg = s.cfg ∧ t.epoch = s.epoch ∧ t.host = s.host ∧ t.ecause = s.ecause ∧
    (i ≠ .halt → t.status = s.status) ∧ (i = .halt → t.upc = s.upc) ∧
    (i ≠ .pack → i ≠ .mrot → t.m = s.m) ∧ (i ≠ .fold → t.ch = s.ch) ∧
    (i ≠ .final → t.out = s.out) ∧ (i ≠ .ser → t.dg = s.dg) ∧
    (∀ r : Fin 16,
      (match i with
        | .init => False
        | .rotr vd _ _ => r ≠ vd
        | .g a b c d _ _ => r ≠ a ∧ r ≠ b ∧ r ≠ c ∧ r ≠ d
        | _ => True) → t.v[r] = s.v[r])

/-- The read columns of the access matrix (10_state.md R36): from two states that agree on what a micro-op reads,
every element it writes gets the same content in both, bits and whether it holds a value, and every other element is
left as it was in each. Of the
parameters `INIT` reads `IV` alone and every other micro-op none, but for `FOLD`, which depends on the optional switch
of R130 and, under the reading the spec does not take, on `IV` (the model's choice to carry it, log 6). -/
def Obligations.AccessMatrixReads : Prop :=
  ∀ (i : Instr) (s s' t t' : State), i.wellFormed = true →
    (∀ e ∈ reads i, s.element e = s'.element e) →
    (i = .pack → s.din = s'.din) → (i = .init → s.cfg.iv = s'.cfg.iv) →
    (i = .fold → s.cfg.foldUsesSeed = s'.cfg.foldUsesSeed ∧
      (s.cfg.foldUsesSeed = true → s.cfg.iv = s'.cfg.iv)) →
    exec i s = .next t → exec i s' = .next t' →
    (∀ e : Elem, t.element e = t'.element e ∨ (t.element e = s.element e ∧ t'.element e = s'.element e)) ∧
    (t.dg = t'.dg ∨ (t.dg = s.dg ∧ t'.dg = s'.dg))

/-- No free bits reach what the spec says of the machine (10_state.md R32, R34; log 1, log 3): from two states that differ
in nothing but the bits of elements holding no value and the model's counter that selects them, every step that goes on,
of the sequencer or of the host, leads to two states that differ in nothing else either, and goes on from both. -/
def Obligations.FreeBitsStayOutOfTheSpecsState : Prop :=
  ∀ s s' t : State, s.SameToSpec s' → step s = .next t → ∃ t', step s' = .next t' ∧ t.SameToSpec t'

/-- The model's choice for the terms no legal word spells (log 10; 40_rotate.md R93, 41_mixer.md R103): `ROTR` with
`n = 0` and `G` with two equal indices take `IllegalUop`, as their words do. -/
def Obligations.IllFormedTermsTakeIllegalUop : Prop :=
  ∀ (i : Instr) (s : State), i.wellFormed = false →
    exec i s = .next { s with ecause := .illegalUop, status := .error }

/-! ### The host interface, reset and resting -/

/-- 45_sequencer.md R152: a `START` in `IDLE` or `DONE` latches the bytes, whatever their number, sets every element of
the five files to no value, `ECAUSE` to NONE, `UPC` to 0 and `STATUS` to `BUSY`, all in one step; the parameters are
unchanged, of which the switch is the model's to carry (log 6). That the model's list of host moves loses the move is the
model's choice (log 7). That the input stays
latched is `InputIsLatched`. -/
def Obligations.StartLatchesAndClears : Prop :=
  ∀ (s : State) (data : List Byte) (rest : List HostMove), s.host = .start data :: rest →
    (s.status = .idle ∨ s.status = .done) →
    ∃ t, step s = .next t ∧ t.din = data ∧
      noneHeld t.v ∧ noneHeld t.m ∧ noneHeld t.ch ∧ noneHeld t.out ∧ noneHeld t.dg ∧
      t.ecause = .none ∧ t.upc = 0 ∧ t.status = .busy ∧ t.cfg = s.cfg ∧ t.host = rest

/-- 45_sequencer.md R153: a `START` in `BUSY` or `ERROR` is ignored, no state of the core changes. That the model's list of
host moves loses the move is the model's choice (log 7). -/
def Obligations.StartIgnoredInBusyAndError : Prop :=
  ∀ (s : State) (data : List Byte) (rest : List HostMove), s.host = .start data :: rest →
    (s.status = .busy ∨ s.status = .error) → step s = .next { s with host := rest }

/-- 70_reset_and_hazards.md R190: a `RESET` in any `STATUS` puts the core in the state of 10_state.md R37, `IV` and `UPROG`
not affected; it is the only way out of `ERROR`. That the switch is not affected either and that the rest of the
model's list of host moves stays due is the model's (log 6, log 17, log 7). -/
def Obligations.ResetFromAnyStatus : Prop :=
  (∀ (s : State) (rest : List HostMove), s.host = .reset :: rest →
    ∃ t, step s = .next t ∧ t.status = .idle ∧ t.upc = 0 ∧ t.ecause = .none ∧ t.din = [] ∧
      noneHeld t.v ∧ noneHeld t.m ∧ noneHeld t.ch ∧ noneHeld t.out ∧ noneHeld t.dg ∧
      t.cfg = s.cfg ∧ t.host = rest) ∧
  (∀ s t : State, s.status = .error → step s = .next t → t.status ≠ .error → ∃ rest, s.host = .reset :: rest)

/-- 10_state.md R37: the state after reset. The parameters are the model's to carry in the state: `IV` is the opaque
`Config.hardwareIV` (log 4), the ROM holds `HASH_PROG` (00_scope.md R8, log 5), and the optional switch has the value
false, the normative fold of 43_codec_compressor.md R130 (D13, log 6). -/
def Obligations.StateAfterReset : Prop :=
  State.reset.status = .idle ∧ State.reset.upc = 0 ∧ State.reset.ecause = .none ∧ State.reset.din = [] ∧
  noneHeld State.reset.v ∧ noneHeld State.reset.m ∧ noneHeld State.reset.ch ∧ noneHeld State.reset.out ∧
  noneHeld State.reset.dg ∧ State.reset.cfg.iv = Config.hardwareIV ∧ State.reset.cfg.uprog = hashProg ∧
  State.reset.cfg.foldUsesSeed = false

/-- 00_scope.md R7, R8 and 10_state.md R20, R26: `IV` and `UPROG` are parameters that no step changes, of the sequencer
or of the host; nor does one change the optional switch (the model's choice to carry it, log 6). With `StateAfterReset`,
the machine that starts at reset folds as the spec's normative reading does at every step. -/
def Obligations.StepKeepsParameters : Prop :=
  ∀ s t : State, step s = .next t → t.cfg = s.cfg

/-- 10_state.md R27 and 45_sequencer.md R152: `DIN` is written by an accepted `START` with the bytes presented, emptied by
`RESET` (R37, 70_reset_and_hazards.md R190), and by nothing else, so that in `BUSY` the input stays as it was latched.
What the host is going to do is the model's own list (log 7). -/
def Obligations.InputIsLatched : Prop :=
  ∀ s t : State, step s = .next t →
    t.din = s.din ∨
    (∃ data rest, s.host = .start data :: rest ∧ (s.status = .idle ∨ s.status = .done) ∧ t.din = data) ∨
    (∃ rest, s.host = .reset :: rest ∧ t.din = [])

/-- 20_memory.md R61 with 10_state.md R30, R31: the host's reads. `DG` is given a value only in `DONE`, then all 32 bytes
as they stand; where a byte holds no value the read is given none (log 13). -/
def Obligations.HostReads : Prop :=
  (∀ s : State, s.status ≠ .done → s.hostReadDG = none) ∧
  (∀ (s : State) (d : Vector Byte 32), s.status = .done → (∀ k : Fin 32, s.dg[k] = .held d[k]) → s.hostReadDG = some d) ∧
  (∀ (s : State) (d : Vector Byte 32), s.hostReadDG = some d → s.status = .done ∧ ∀ k : Fin 32, s.dg[k] = .held d[k]) ∧
  (∀ s : State, s.hostReadUPC = s.upc ∧
    (s.hostReadSTATUS = 0 ↔ s.status = .idle) ∧ (s.hostReadSTATUS = 1 ↔ s.status = .busy) ∧
    (s.hostReadSTATUS = 2 ↔ s.status = .done) ∧ (s.hostReadSTATUS = 3 ↔ s.status = .error) ∧
    (s.hostReadECAUSE = 0 ↔ s.ecause = .none) ∧ (s.hostReadECAUSE = 1 ↔ s.ecause = .illegalUop))

/-- The model's choice (log 8, log 9) where the sequencer has no step (45_sequencer.md R155, 60_exceptions.md R172): with
the host doing nothing, `IDLE` and `DONE` rest unchanged, `ERROR` is stuck by name when no host move is left. A `pass` is
taken off the model's list first (log 7), so that `ERROR` rests on it while more moves remain and is stuck when it was
the last. -/
def Obligations.RestingAndStuckStates : Prop :=
  (∀ s : State, s.host = [] → (s.status = .idle ∨ s.status = .done) → step s = .next s) ∧
  (∀ s : State, s.host = [] → s.status = .error → step s = .fault .errorState) ∧
  (∀ (s : State) (rest : List HostMove), s.host = .pass :: rest → (s.status = .idle ∨ s.status = .done) →
    step s = .next { s with host := rest }) ∧
  (∀ (s : State) (rest : List HostMove), s.host = .pass :: rest → rest ≠ [] → s.status = .error →
    step s = .next { s with host := rest }) ∧
  (∀ s : State, s.host = [.pass] → s.status = .error → step s = .fault .errorState)

/-- 10_state.md R30: the transitions of `STATUS` and what each is caused by; "nothing else". -/
def Obligations.StatusTransitions : Prop :=
  ∀ s t : State, step s = .next t → t.status ≠ s.status →
    ((∃ rest, s.host = .reset :: rest) ∧ t.status = .idle) ∨
    ((∃ data rest, s.host = .start data :: rest) ∧ (s.status = .idle ∨ s.status = .done) ∧ t.status = .busy) ∨
    (s.status = .busy ∧ s.due? = some .halt ∧ t.status = .done) ∨
    (s.status = .busy ∧ s.due? = none ∧ t.status = .error)

/-! ### Invariants -/

/-- Every step keeps the core's invariant: `1 <= NUOP <= 63` (00_scope.md R8), `UPC <= NUOP` (10_state.md R28),
`ECAUSE = ILLEGAL_UOP` exactly in `ERROR` (R31), the files written whole are whole or empty (R36). -/
def Obligations.StepKeepsCoreInvariant : Prop :=
  ∀ s t : State, s.Inv → step s = .next t → t.Inv

/-- The core's invariant holds at reset. -/
def Obligations.ResetMeetsCoreInvariant : Prop := State.reset.Inv

/-- Every step of the hardware, the machine whose ROM holds `HASH_PROG` (00_scope.md R8), keeps its invariant: never
`ERROR`, and every file held from the index on at which the rest of the call reads it (45_sequencer.md R159). -/
def Obligations.StepKeepsHashProgInvariant : Prop :=
  ∀ s t : State, s.HashInv → step s = .next t → t.HashInv

/-- The hardware's invariant holds at reset. -/
def Obligations.ResetMeetsHashProgInvariant : Prop := State.reset.HashInv

/-- 45_sequencer.md R159 (a), (b) and 60_exceptions.md R174 at every state of the invariant: the micro-op due is legal, the
spec does not refuse it, no exception is taken; in `DONE` the digest is readable. -/
def Obligations.HashProgNeverFaultsOrRefuses : Prop :=
  (∀ s : State, s.HashInv → s.status = .busy → s.host = [] →
    ∃ i t, s.due? = some i ∧ ¬ specRefuses i s ∧ step s = .next t ∧ t.status ≠ .error ∧
      t.ecause = .none) ∧
  (∀ s : State, s.HashInv → s.status = .done → ∃ d, s.hostReadDG = some d)

/-- 45_sequencer.md R158 and 30_encoding.md R76: the 50 words of `HASH_PROG` are the encoding of the pseudo-op `HASH`, and
decode to it. -/
def Obligations.HashProgSpellsHash : Prop :=
  hashProg.length = 50 ∧ hashOps.map encode = hashProg ∧ hashProg.map decode = hashOps.map .legal

/-! ### Runs -/

/-- 45_sequencer.md R159 (c) and R160: with `HASH_PROG` in the ROM, an accepted `START` with any bytes is followed by
exactly 50 steps of the sequencer, with `UPC` counting 0 to 49, to `DONE` with no cause; the digest the host then reads is
`hash(data)`, for every `IV`. `hashFn` is R160's `hash` where the optional switch is false, as it is after reset; where it
is true the digest is that of the reading the spec does not take (R130, the model's choice to carry it, log 6). -/
def Obligations.HashProgComputesHash : Prop :=
  ∀ (s : State) (data : List Byte), s.cfg.uprog = hashProg → (s.status = .idle ∨ s.status = .done) →
    s.host = [.start data] →
    (∀ k < 50, ∃ t, run (k + 1) s = .next t ∧ t.status = .busy ∧ t.upc.toNat = k) ∧
    ∃ t, run 51 s = .next t ∧ t.status = .done ∧ t.upc = 49 ∧ t.ecause = .none ∧
      allHeld t.v ∧ allHeld t.m ∧ allHeld t.ch ∧ allHeld t.out ∧
      t.hostReadDG = some (hashFn s.cfg data)

/-- 10_state.md R33: nothing of an earlier call reaches a call of `HASH_PROG`: from any two states with the same
parameters, the same `START` leads to states of which the spec says the same, step for step: equal but for the bits of
elements that hold no value and the model's lifetime counter (log 3). -/
def Obligations.CallsAreIndependent : Prop :=
  ∀ (s s' : State) (data : List Byte), s.cfg.uprog = hashProg → s'.cfg = s.cfg →
    (s.status = .idle ∨ s.status = .done) → (s'.status = .idle ∨ s'.status = .done) →
    s.host = [.start data] → s'.host = [.start data] →
    ∀ k, k ≤ 50 → ∃ t t', run (k + 1) s = .next t ∧ run (k + 1) s' = .next t' ∧ t.SameToSpec t'

/-- 45_sequencer.md R156: whatever the micro-program, a run of the sequencer takes at most `NUOP + 1` steps and ends. By
R156 a run may also end in a refusal; that it ends in `DONE` or `ERROR` instead, because a read of an element holding no
value goes on, is the model's choice (log 1). -/
def Obligations.RunsOfTheSequencerEnd : Prop :=
  ∀ s : State, s.Inv → s.status = .busy → s.host = [] →
    ∃ k t, k ≤ s.cfg.uprog.length + 1 ∧ run k s = .next t ∧ (t.status = .done ∨ t.status = .error)

/-! ### Arithmetic and the laws of the units -/

/-- 00_scope.md R10: addition modulo 2^64, of two and of three terms, and its corner cases. -/
def Obligations.AdditionWraps : Prop :=
  (∀ x y : Word, (add64 x y).toNat = (x.toNat + y.toNat) % 2 ^ 64) ∧
  (∀ x y z : Word, (add64 (add64 x y) z).toNat = (x.toNat + y.toNat + z.toNat) % 2 ^ 64 ∧
    add64 (add64 x y) z = add64 x (add64 y z) ∧ add64 x y = add64 y x) ∧
  add64 0xFFFFFFFFFFFFFFFF#64 1 = 0 ∧
  add64 0xFFFFFFFFFFFFFFFF#64 0xFFFFFFFFFFFFFFFF#64 = 0xFFFFFFFFFFFFFFFE#64 ∧
  (∀ x : Word, add64 x 0 = x)

/-- 40_rotate.md R90: the value of `rotr64`, by both formulas and bit by bit; the `|` may be `+` or `XOR`; the worked
example. -/
def Obligations.RotateIsTheFormula : Prop :=
  (∀ (x : Word) (n : Amount),
    (rotr64 x n).toNat = ((x.toNat >>> n.val) ||| (x.toNat <<< (64 - n.val))) % 2 ^ 64 ∧
    (rotr64 x n).toNat = x.toNat / 2 ^ n.val + x.toNat % 2 ^ n.val * 2 ^ (64 - n.val) ∧
    (∀ i < 64, (rotr64 x n).getLsbD i = x.getLsbD ((i + n.val) % 64)) ∧
    rotr64 x n = (x >>> n.val) + (x <<< (64 - n.val)) ∧
    rotr64 x n = (x >>> n.val) ^^^ (x <<< (64 - n.val))) ∧
  rotr64 0x0123456789ABCDEF#64 amount32 = 0x89ABCDEF01234567#64

/-- 40_rotate.md R91 (a) to (h). -/
def Obligations.RotateLaws : Prop :=
  (∀ (x : Word) (n k : Amount), n.val + k.val = 64 → rotr64 (rotr64 x n) k = x) ∧
  (∀ n : Amount, Function.Bijective fun x => rotr64 x n) ∧
  (∀ (x y : Word) (n : Amount), rotr64 (x ^^^ y) n = rotr64 x n ^^^ rotr64 y n) ∧
  (∀ n : Amount, rotr64 0 n = 0 ∧ rotr64 (BitVec.allOnes 64) n = BitVec.allOnes 64) ∧
  (∀ (x : Word) (n : Amount),
    ((Finset.range 64).filter fun i => (rotr64 x n).getLsbD i = true).card =
      ((Finset.range 64).filter fun i => x.getLsbD i = true).card) ∧
  (∀ (x : Word) (n k l : Amount), (n.val + k.val) % 64 = l.val → rotr64 (rotr64 x n) k = rotr64 x l) ∧
  (∀ x : Word, (rotr64 x amount63).toNat = x.toNat * 2 % 2 ^ 64 + x.toNat / 2 ^ 63) ∧
  (∀ x : Word, rotr64 x amount32 = x.extractLsb' 0 32 ++ x.extractLsb' 32 32)

/-- 20_memory.md R54: the little-endian word of eight bytes, the bytes of a word, and that the two are inverse. -/
def Obligations.LittleEndianBothWays : Prop :=
  (∀ b : Fin 8 → Byte, (le64 b).toNat = ∑ k : Fin 8, (b k).toNat * 2 ^ (8 * k.val)) ∧
  (∀ (w : Word) (k : Fin 8), (byteOf w k).toNat = w.toNat / 2 ^ (8 * k.val) % 256) ∧
  (∀ (b : Fin 8 → Byte) (k : Fin 8), byteOf (le64 b) k = b k) ∧
  (∀ w : Word, le64 (fun k => byteOf w k) = w) ∧
  (List.range 8).map (byteOf 0x0123456789ABCDEF#64) =
    [0xEF#8, 0xCD#8, 0xAB#8, 0x89#8, 0x67#8, 0x45#8, 0x23#8, 0x01#8]

/-- 41_mixer.md R102 (b), (c): for fixed message words the mixer is a bijection on quadruples, and zero is fixed when the
message is zero. -/
def Obligations.MixerIsBijective : Prop :=
  (∀ mx my : Word, Function.Bijective fun q : Word × Word × Word × Word =>
    Gf q.1 q.2.1 q.2.2.1 q.2.2.2 mx my) ∧
  Gf 0 0 0 0 0 0 = (0, 0, 0, 0)

/-- 41_mixer.md R102 (d): two `G` micro-ops with disjoint index sets commute, in every state (in the states where the spec
refuses one of them too: the model's choice, log 1). -/
def Obligations.DisjointMixersCommute : Prop :=
  ∀ (a b c d a' b' c' d' : Fin 16) (ix iy ix' iy' : Fin 8) (s : State),
    distinct4 a b c d = true → distinct4 a' b' c' d' = true →
    (∀ p ∈ [a, b, c, d], ∀ q ∈ [a', b', c', d'], p ≠ q) →
    ∃ t, execAll [.g a b c d ix iy, .g a' b' c' d' ix' iy'] s = .next t ∧
      execAll [.g a' b' c' d' ix' iy', .g a b c d ix iy] s = .next t

/-- 42_permutation.md R111: after `k` executions of `MROT`, position `j` holds the word of position `(j + k) mod 8`. -/
def Obligations.MrotIterated : Prop :=
  ∀ (k : Nat) (s : State) (mb : Fin 8 → Word), (∀ j : Fin 8, s.m[j] = .held (mb j)) →
    ∃ t, execAll (List.replicate k .mrot) s = .next t ∧
      (∀ j : Fin 8, t.m[j] = .held (mb ⟨(j.val + k) % 8, Nat.mod_lt _ (by decide)⟩)) ∧
      t = { s with m := t.m, upc := s.upc + BitVec.ofNat 6 k }

/-- 42_permutation.md R116: `PERMUTE` is five rounds of the eight rows with the message offset growing by one, and leaves
the ordering rotated four places, nothing else changed but `V` and `UPC`. -/
def Obligations.PermuteRunsFiveRounds : Prop :=
  ∀ (s : State) (w : Vector Word 16) (mb : Fin 8 → Word), (∀ i : Fin 16, s.v[i] = .held w[i]) →
    (∀ j : Fin 8, s.m[j] = .held (mb j)) →
    ∃ t, execAll permuteOps s = .next t ∧
      (∀ i : Fin 16, t.v[i] = .held (permuteFn mb w)[i]) ∧
      (∀ j : Fin 8, t.m[j] = .held (mb (j + 4))) ∧
      t = { s with v := t.v, m := t.m, upc := s.upc + 44 }

/-- 42_permutation.md R117: for fixed message words the five rounds are a bijection on the sixteen words. -/
def Obligations.PermuteIsBijective : Prop :=
  ∀ mb : Fin 8 → Word, Function.Bijective (permuteFn mb)

/-- 43_codec_compressor.md R126 (a) to (d): bytes at or after offset 64 do not matter, trailing zero bytes up to 64 do not
matter, and on inputs of exactly 64 bytes packing is a bijection onto octuples of words. -/
def Obligations.PackLaws : Prop :=
  (∀ x y : List Byte, 64 ≤ x.length → packWord (x.take 64 ++ y) = packWord x) ∧
  (∀ x : List Byte, x.length < 64 → packWord (x ++ List.replicate (64 - x.length) 0#8) = packWord x) ∧
  (∀ (x : List Byte) (n : Nat), x.length + n ≤ 64 → packWord (x ++ List.replicate n 0#8) = packWord x) ∧
  (∀ x y : List Byte, x.length = 64 → y.length = 64 → packWord x = packWord y → x = y) ∧
  (∀ f : Fin 8 → Word, ∃ x : List Byte, x.length = 64 ∧ packWord x = f)

/-- 45_sequencer.md R161: truncation equivalence and padding equivalence of `hash`, for every `IV`. -/
def Obligations.HashTruncatesAndPads : Prop :=
  ∀ cfg : Config,
    (∀ x y : List Byte, 64 ≤ x.length → hashFn cfg (x.take 64 ++ y) = hashFn cfg (x.take 64)) ∧
    (∀ x : List Byte, x.length < 64 → hashFn cfg x = hashFn cfg (x ++ List.replicate (64 - x.length) 0#8))

/-- 44_finalizer.md R141: when `FINAL` follows `FOLD`, `OUT[i] = V[4+i] XOR V[8+i]`, the two `V[i]` cancelling. -/
def Obligations.FinalAfterFold : Prop :=
  ∀ (s : State) (w : Fin 16 → Word), s.cfg.foldUsesSeed = false → (∀ i : Fin 16, s.v[i] = .held (w i)) →
    ∃ t, execAll [.fold, .final] s = .next t ∧
      (∀ i : Fin 4, t.out[i] = .held (w ⟨4 + i.val, by omega⟩ ^^^ w ⟨8 + i.val, by omega⟩)) ∧
      t = { s with ch := t.ch, out := t.out, upc := s.upc + 2 }
end

