-- ==== Sys2Proof/Laws/Arith.lean ====
section
/-! SUPPORT. The small lemmas of the arithmetic: elements of a tabulated file, the bits of a rotation, the
sum of an addition. -/

namespace Sys2Proof.Machine

@[simp] theorem tabulate_getElem {α : Type} {n : Nat} (f : Fin n → α) (k : Nat) (h : k < n) :
    (tabulate f)[k] = f ⟨k, h⟩ := by simp [tabulate]

@[simp] theorem tabulate_getElem_fin {α : Type} {n : Nat} (f : Fin n → α) (k : Fin n) :
    (tabulate f)[k] = f k := by simp [tabulate]

/-- Two files are equal when their elements are. -/
theorem file_ext {α : Type} {n : Nat} {xs ys : Vector α n} (h : ∀ k : Fin n, xs[k] = ys[k]) : xs = ys :=
  Vector.ext fun k hk => h ⟨k, hk⟩

/-- An addition's value (00_scope.md R10). -/
theorem add64_toNat (x y : Word) : (add64 x y).toNat = (x.toNat + y.toNat) % 2 ^ 64 := BitVec.toNat_add ..

/-- `rotr64` is the library's rotation, on its domain. -/
theorem rotr64_eq_rotateRight (x : Word) (n : Amount) : rotr64 x n = x.rotateRight n.val := by
  have := n.le63
  simp only [rotr64, BitVec.rotateRight_def]
  rw [Nat.mod_eq_of_lt (by omega)]

end Sys2Proof.Machine
end

