-- ==== Sys2Proof/Laws/State.lean ====
section
/-! SUPPORT. What every named update of the state does to every field, one lemma each, true by rfl, so that
no later proof unfolds a record update. -/

namespace Sys2Proof.Machine

/-! An element of a register file. -/

section Reg
variable {α : Type} (x : α) (ok : Bool)

@[simp] theorem Reg.bits_held : (Reg.held x).bits = x := rfl
@[simp] theorem Reg.bits_free : (Reg.free x).bits = x := rfl
@[simp] theorem Reg.isHeld_held : (Reg.held x).isHeld = true := rfl
@[simp] theorem Reg.isHeld_free : (Reg.free x).isHeld = false := rfl
@[simp] theorem Reg.written_true : Reg.written true x = .held x := rfl
@[simp] theorem Reg.written_false : Reg.written false x = .free x := rfl
@[simp] theorem Reg.bits_written : (Reg.written ok x).bits = x := by cases ok <;> rfl
@[simp] theorem Reg.isHeld_written : (Reg.written ok x).isHeld = ok := by cases ok <;> rfl

end Reg

variable (s : State)

/-! `writeV` -/

@[simp] theorem State.writeV_v (ok : Bool) (i : Fin 16) (w : Word) : (s.writeV ok i w).v = s.v.set i (.written ok w) := rfl
@[simp] theorem State.writeV_m (ok : Bool) (i : Fin 16) (w : Word) : (s.writeV ok i w).m = s.m := rfl
@[simp] theorem State.writeV_ch (ok : Bool) (i : Fin 16) (w : Word) : (s.writeV ok i w).ch = s.ch := rfl
@[simp] theorem State.writeV_out (ok : Bool) (i : Fin 16) (w : Word) : (s.writeV ok i w).out = s.out := rfl
@[simp] theorem State.writeV_dg (ok : Bool) (i : Fin 16) (w : Word) : (s.writeV ok i w).dg = s.dg := rfl
@[simp] theorem State.writeV_din (ok : Bool) (i : Fin 16) (w : Word) : (s.writeV ok i w).din = s.din := rfl
@[simp] theorem State.writeV_upc (ok : Bool) (i : Fin 16) (w : Word) : (s.writeV ok i w).upc = s.upc := rfl
@[simp] theorem State.writeV_status (ok : Bool) (i : Fin 16) (w : Word) : (s.writeV ok i w).status = s.status := rfl
@[simp] theorem State.writeV_ecause (ok : Bool) (i : Fin 16) (w : Word) : (s.writeV ok i w).ecause = s.ecause := rfl
@[simp] theorem State.writeV_cfg (ok : Bool) (i : Fin 16) (w : Word) : (s.writeV ok i w).cfg = s.cfg := rfl
@[simp] theorem State.writeV_epoch (ok : Bool) (i : Fin 16) (w : Word) : (s.writeV ok i w).epoch = s.epoch := rfl
@[simp] theorem State.writeV_host (ok : Bool) (i : Fin 16) (w : Word) : (s.writeV ok i w).host = s.host := rfl

/-! `loadV` -/

@[simp] theorem State.loadV_v (ok : Bool) (f : Fin 16 → Word) : (s.loadV ok f).v = tabulate fun i => .written ok (f i) := rfl
@[simp] theorem State.loadV_m (ok : Bool) (f : Fin 16 → Word) : (s.loadV ok f).m = s.m := rfl
@[simp] theorem State.loadV_ch (ok : Bool) (f : Fin 16 → Word) : (s.loadV ok f).ch = s.ch := rfl
@[simp] theorem State.loadV_out (ok : Bool) (f : Fin 16 → Word) : (s.loadV ok f).out = s.out := rfl
@[simp] theorem State.loadV_dg (ok : Bool) (f : Fin 16 → Word) : (s.loadV ok f).dg = s.dg := rfl
@[simp] theorem State.loadV_din (ok : Bool) (f : Fin 16 → Word) : (s.loadV ok f).din = s.din := rfl
@[simp] theorem State.loadV_upc (ok : Bool) (f : Fin 16 → Word) : (s.loadV ok f).upc = s.upc := rfl
@[simp] theorem State.loadV_status (ok : Bool) (f : Fin 16 → Word) : (s.loadV ok f).status = s.status := rfl
@[simp] theorem State.loadV_ecause (ok : Bool) (f : Fin 16 → Word) : (s.loadV ok f).ecause = s.ecause := rfl
@[simp] theorem State.loadV_cfg (ok : Bool) (f : Fin 16 → Word) : (s.loadV ok f).cfg = s.cfg := rfl
@[simp] theorem State.loadV_epoch (ok : Bool) (f : Fin 16 → Word) : (s.loadV ok f).epoch = s.epoch := rfl
@[simp] theorem State.loadV_host (ok : Bool) (f : Fin 16 → Word) : (s.loadV ok f).host = s.host := rfl

/-! `loadM` -/

@[simp] theorem State.loadM_v (ok : Bool) (f : Fin 8 → Word) : (s.loadM ok f).v = s.v := rfl
@[simp] theorem State.loadM_m (ok : Bool) (f : Fin 8 → Word) : (s.loadM ok f).m = tabulate fun j => .written ok (f j) := rfl
@[simp] theorem State.loadM_ch (ok : Bool) (f : Fin 8 → Word) : (s.loadM ok f).ch = s.ch := rfl
@[simp] theorem State.loadM_out (ok : Bool) (f : Fin 8 → Word) : (s.loadM ok f).out = s.out := rfl
@[simp] theorem State.loadM_dg (ok : Bool) (f : Fin 8 → Word) : (s.loadM ok f).dg = s.dg := rfl
@[simp] theorem State.loadM_din (ok : Bool) (f : Fin 8 → Word) : (s.loadM ok f).din = s.din := rfl
@[simp] theorem State.loadM_upc (ok : Bool) (f : Fin 8 → Word) : (s.loadM ok f).upc = s.upc := rfl
@[simp] theorem State.loadM_status (ok : Bool) (f : Fin 8 → Word) : (s.loadM ok f).status = s.status := rfl
@[simp] theorem State.loadM_ecause (ok : Bool) (f : Fin 8 → Word) : (s.loadM ok f).ecause = s.ecause := rfl
@[simp] theorem State.loadM_cfg (ok : Bool) (f : Fin 8 → Word) : (s.loadM ok f).cfg = s.cfg := rfl
@[simp] theorem State.loadM_epoch (ok : Bool) (f : Fin 8 → Word) : (s.loadM ok f).epoch = s.epoch := rfl
@[simp] theorem State.loadM_host (ok : Bool) (f : Fin 8 → Word) : (s.loadM ok f).host = s.host := rfl

/-! `loadCH` -/

@[simp] theorem State.loadCH_v (ok : Bool) (f : Fin 8 → Word) : (s.loadCH ok f).v = s.v := rfl
@[simp] theorem State.loadCH_m (ok : Bool) (f : Fin 8 → Word) : (s.loadCH ok f).m = s.m := rfl
@[simp] theorem State.loadCH_ch (ok : Bool) (f : Fin 8 → Word) : (s.loadCH ok f).ch = tabulate fun i => .written ok (f i) := rfl
@[simp] theorem State.loadCH_out (ok : Bool) (f : Fin 8 → Word) : (s.loadCH ok f).out = s.out := rfl
@[simp] theorem State.loadCH_dg (ok : Bool) (f : Fin 8 → Word) : (s.loadCH ok f).dg = s.dg := rfl
@[simp] theorem State.loadCH_din (ok : Bool) (f : Fin 8 → Word) : (s.loadCH ok f).din = s.din := rfl
@[simp] theorem State.loadCH_upc (ok : Bool) (f : Fin 8 → Word) : (s.loadCH ok f).upc = s.upc := rfl
@[simp] theorem State.loadCH_status (ok : Bool) (f : Fin 8 → Word) : (s.loadCH ok f).status = s.status := rfl
@[simp] theorem State.loadCH_ecause (ok : Bool) (f : Fin 8 → Word) : (s.loadCH ok f).ecause = s.ecause := rfl
@[simp] theorem State.loadCH_cfg (ok : Bool) (f : Fin 8 → Word) : (s.loadCH ok f).cfg = s.cfg := rfl
@[simp] theorem State.loadCH_epoch (ok : Bool) (f : Fin 8 → Word) : (s.loadCH ok f).epoch = s.epoch := rfl
@[simp] theorem State.loadCH_host (ok : Bool) (f : Fin 8 → Word) : (s.loadCH ok f).host = s.host := rfl

/-! `loadOUT` -/

@[simp] theorem State.loadOUT_v (ok : Bool) (f : Fin 4 → Word) : (s.loadOUT ok f).v = s.v := rfl
@[simp] theorem State.loadOUT_m (ok : Bool) (f : Fin 4 → Word) : (s.loadOUT ok f).m = s.m := rfl
@[simp] theorem State.loadOUT_ch (ok : Bool) (f : Fin 4 → Word) : (s.loadOUT ok f).ch = s.ch := rfl
@[simp] theorem State.loadOUT_out (ok : Bool) (f : Fin 4 → Word) : (s.loadOUT ok f).out = tabulate fun i => .written ok (f i) := rfl
@[simp] theorem State.loadOUT_dg (ok : Bool) (f : Fin 4 → Word) : (s.loadOUT ok f).dg = s.dg := rfl
@[simp] theorem State.loadOUT_din (ok : Bool) (f : Fin 4 → Word) : (s.loadOUT ok f).din = s.din := rfl
@[simp] theorem State.loadOUT_upc (ok : Bool) (f : Fin 4 → Word) : (s.loadOUT ok f).upc = s.upc := rfl
@[simp] theorem State.loadOUT_status (ok : Bool) (f : Fin 4 → Word) : (s.loadOUT ok f).status = s.status := rfl
@[simp] theorem State.loadOUT_ecause (ok : Bool) (f : Fin 4 → Word) : (s.loadOUT ok f).ecause = s.ecause := rfl
@[simp] theorem State.loadOUT_cfg (ok : Bool) (f : Fin 4 → Word) : (s.loadOUT ok f).cfg = s.cfg := rfl
@[simp] theorem State.loadOUT_epoch (ok : Bool) (f : Fin 4 → Word) : (s.loadOUT ok f).epoch = s.epoch := rfl
@[simp] theorem State.loadOUT_host (ok : Bool) (f : Fin 4 → Word) : (s.loadOUT ok f).host = s.host := rfl

/-! `loadDG` -/

@[simp] theorem State.loadDG_v (ok : Bool) (f : Fin 32 → Byte) : (s.loadDG ok f).v = s.v := rfl
@[simp] theorem State.loadDG_m (ok : Bool) (f : Fin 32 → Byte) : (s.loadDG ok f).m = s.m := rfl
@[simp] theorem State.loadDG_ch (ok : Bool) (f : Fin 32 → Byte) : (s.loadDG ok f).ch = s.ch := rfl
@[simp] theorem State.loadDG_out (ok : Bool) (f : Fin 32 → Byte) : (s.loadDG ok f).out = s.out := rfl
@[simp] theorem State.loadDG_dg (ok : Bool) (f : Fin 32 → Byte) : (s.loadDG ok f).dg = tabulate fun k => .written ok (f k) := rfl
@[simp] theorem State.loadDG_din (ok : Bool) (f : Fin 32 → Byte) : (s.loadDG ok f).din = s.din := rfl
@[simp] theorem State.loadDG_upc (ok : Bool) (f : Fin 32 → Byte) : (s.loadDG ok f).upc = s.upc := rfl
@[simp] theorem State.loadDG_status (ok : Bool) (f : Fin 32 → Byte) : (s.loadDG ok f).status = s.status := rfl
@[simp] theorem State.loadDG_ecause (ok : Bool) (f : Fin 32 → Byte) : (s.loadDG ok f).ecause = s.ecause := rfl
@[simp] theorem State.loadDG_cfg (ok : Bool) (f : Fin 32 → Byte) : (s.loadDG ok f).cfg = s.cfg := rfl
@[simp] theorem State.loadDG_epoch (ok : Bool) (f : Fin 32 → Byte) : (s.loadDG ok f).epoch = s.epoch := rfl
@[simp] theorem State.loadDG_host (ok : Bool) (f : Fin 32 → Byte) : (s.loadDG ok f).host = s.host := rfl

/-! `advance` -/

@[simp] theorem State.advance_v : (s.advance).v = s.v := rfl
@[simp] theorem State.advance_m : (s.advance).m = s.m := rfl
@[simp] theorem State.advance_ch : (s.advance).ch = s.ch := rfl
@[simp] theorem State.advance_out : (s.advance).out = s.out := rfl
@[simp] theorem State.advance_dg : (s.advance).dg = s.dg := rfl
@[simp] theorem State.advance_din : (s.advance).din = s.din := rfl
@[simp] theorem State.advance_upc : (s.advance).upc = s.upc + 1 := rfl
@[simp] theorem State.advance_status : (s.advance).status = s.status := rfl
@[simp] theorem State.advance_ecause : (s.advance).ecause = s.ecause := rfl
@[simp] theorem State.advance_cfg : (s.advance).cfg = s.cfg := rfl
@[simp] theorem State.advance_epoch : (s.advance).epoch = s.epoch := rfl
@[simp] theorem State.advance_host : (s.advance).host = s.host := rfl

/-! `setStatus` -/

@[simp] theorem State.setStatus_v (x : Status) : (s.setStatus x).v = s.v := rfl
@[simp] theorem State.setStatus_m (x : Status) : (s.setStatus x).m = s.m := rfl
@[simp] theorem State.setStatus_ch (x : Status) : (s.setStatus x).ch = s.ch := rfl
@[simp] theorem State.setStatus_out (x : Status) : (s.setStatus x).out = s.out := rfl
@[simp] theorem State.setStatus_dg (x : Status) : (s.setStatus x).dg = s.dg := rfl
@[simp] theorem State.setStatus_din (x : Status) : (s.setStatus x).din = s.din := rfl
@[simp] theorem State.setStatus_upc (x : Status) : (s.setStatus x).upc = s.upc := rfl
@[simp] theorem State.setStatus_status (x : Status) : (s.setStatus x).status = x := rfl
@[simp] theorem State.setStatus_ecause (x : Status) : (s.setStatus x).ecause = s.ecause := rfl
@[simp] theorem State.setStatus_cfg (x : Status) : (s.setStatus x).cfg = s.cfg := rfl
@[simp] theorem State.setStatus_epoch (x : Status) : (s.setStatus x).epoch = s.epoch := rfl
@[simp] theorem State.setStatus_host (x : Status) : (s.setStatus x).host = s.host := rfl

/-! `takeIllegalUop` -/

@[simp] theorem State.takeIllegalUop_v : (s.takeIllegalUop).v = s.v := rfl
@[simp] theorem State.takeIllegalUop_m : (s.takeIllegalUop).m = s.m := rfl
@[simp] theorem State.takeIllegalUop_ch : (s.takeIllegalUop).ch = s.ch := rfl
@[simp] theorem State.takeIllegalUop_out : (s.takeIllegalUop).out = s.out := rfl
@[simp] theorem State.takeIllegalUop_dg : (s.takeIllegalUop).dg = s.dg := rfl
@[simp] theorem State.takeIllegalUop_din : (s.takeIllegalUop).din = s.din := rfl
@[simp] theorem State.takeIllegalUop_upc : (s.takeIllegalUop).upc = s.upc := rfl
@[simp] theorem State.takeIllegalUop_status : (s.takeIllegalUop).status = .error := rfl
@[simp] theorem State.takeIllegalUop_ecause : (s.takeIllegalUop).ecause = .illegalUop := rfl
@[simp] theorem State.takeIllegalUop_cfg : (s.takeIllegalUop).cfg = s.cfg := rfl
@[simp] theorem State.takeIllegalUop_epoch : (s.takeIllegalUop).epoch = s.epoch := rfl
@[simp] theorem State.takeIllegalUop_host : (s.takeIllegalUop).host = s.host := rfl

/-! `clearDatapath` -/

@[simp] theorem State.clearDatapath_v : (s.clearDatapath).v = tabulate fun k => .free (Config.unwritten (s.epoch + 1) (.v k)) := rfl
@[simp] theorem State.clearDatapath_m : (s.clearDatapath).m = tabulate fun k => .free (Config.unwritten (s.epoch + 1) (.m k)) := rfl
@[simp] theorem State.clearDatapath_ch : (s.clearDatapath).ch = tabulate fun k => .free (Config.unwritten (s.epoch + 1) (.ch k)) := rfl
@[simp] theorem State.clearDatapath_out : (s.clearDatapath).out = tabulate fun k => .free (Config.unwritten (s.epoch + 1) (.out k)) := rfl
@[simp] theorem State.clearDatapath_dg : (s.clearDatapath).dg = tabulate fun k => .free (Config.unwrittenByte (s.epoch + 1) k) := rfl
@[simp] theorem State.clearDatapath_din : (s.clearDatapath).din = s.din := rfl
@[simp] theorem State.clearDatapath_upc : (s.clearDatapath).upc = s.upc := rfl
@[simp] theorem State.clearDatapath_status : (s.clearDatapath).status = s.status := rfl
@[simp] theorem State.clearDatapath_ecause : (s.clearDatapath).ecause = s.ecause := rfl
@[simp] theorem State.clearDatapath_cfg : (s.clearDatapath).cfg = s.cfg := rfl
@[simp] theorem State.clearDatapath_epoch : (s.clearDatapath).epoch = s.epoch + 1 := rfl
@[simp] theorem State.clearDatapath_host : (s.clearDatapath).host = s.host := rfl

/-! `State.reset` -/

@[simp] theorem State.reset_v : State.reset.v = tabulate fun k => .free (Config.unwritten 0 (.v k)) := rfl
@[simp] theorem State.reset_m : State.reset.m = tabulate fun k => .free (Config.unwritten 0 (.m k)) := rfl
@[simp] theorem State.reset_ch : State.reset.ch = tabulate fun k => .free (Config.unwritten 0 (.ch k)) := rfl
@[simp] theorem State.reset_out : State.reset.out = tabulate fun k => .free (Config.unwritten 0 (.out k)) := rfl
@[simp] theorem State.reset_dg : State.reset.dg = tabulate fun k => .free (Config.unwrittenByte 0 k) := rfl
@[simp] theorem State.reset_din : State.reset.din = [] := rfl
@[simp] theorem State.reset_upc : State.reset.upc = 0 := rfl
@[simp] theorem State.reset_status : State.reset.status = .idle := rfl
@[simp] theorem State.reset_ecause : State.reset.ecause = .none := rfl
@[simp] theorem State.reset_cfg : State.reset.cfg = { iv := Config.hardwareIV, uprog := hashProg, foldUsesSeed := false } := rfl
@[simp] theorem State.reset_epoch : State.reset.epoch = 0 := rfl
@[simp] theorem State.reset_host : State.reset.host = [] := rfl

/-! `hostReset` -/

@[simp] theorem State.hostReset_v : (s.hostReset).v = tabulate fun k => .free (Config.unwritten (s.epoch + 1) (.v k)) := rfl
@[simp] theorem State.hostReset_m : (s.hostReset).m = tabulate fun k => .free (Config.unwritten (s.epoch + 1) (.m k)) := rfl
@[simp] theorem State.hostReset_ch : (s.hostReset).ch = tabulate fun k => .free (Config.unwritten (s.epoch + 1) (.ch k)) := rfl
@[simp] theorem State.hostReset_out : (s.hostReset).out = tabulate fun k => .free (Config.unwritten (s.epoch + 1) (.out k)) := rfl
@[simp] theorem State.hostReset_dg : (s.hostReset).dg = tabulate fun k => .free (Config.unwrittenByte (s.epoch + 1) k) := rfl
@[simp] theorem State.hostReset_din : (s.hostReset).din = [] := rfl
@[simp] theorem State.hostReset_upc : (s.hostReset).upc = 0 := rfl
@[simp] theorem State.hostReset_status : (s.hostReset).status = .idle := rfl
@[simp] theorem State.hostReset_ecause : (s.hostReset).ecause = .none := rfl
@[simp] theorem State.hostReset_cfg : (s.hostReset).cfg = s.cfg := rfl
@[simp] theorem State.hostReset_epoch : (s.hostReset).epoch = s.epoch + 1 := rfl
@[simp] theorem State.hostReset_host : (s.hostReset).host = s.host := rfl

end Sys2Proof.Machine
end

