-- ==== Sys2Proof/Laws/Ops.lean ====
section
/-! SUPPORT. One lemma for each shared operation that says what it gives: reads after writes, the amount
field, the host's moves, resting. Later proofs cite these instead of unfolding the operations. -/

namespace Sys2Proof.Machine

variable (s t : State)

/-! Reads of elements that hold a value, and of two states that agree. -/

theorem State.readV_held {i : Fin 16} {x : Word} (h : s.v[i] = .held x) : s.readV i = x := by
  simp [State.readV, h]

theorem State.readV_congr (h : s.v = t.v) : s.readV = t.readV := by
  funext i; simp [State.readV, h]

theorem State.readV_agree {i : Fin 16} (h : s.v[i] = t.v[i]) : s.readV i = t.readV i := by
  simp only [State.readV, h]

theorem State.readM_held {i : Fin 8} {x : Word} (h : s.m[i] = .held x) : s.readM i = x := by
  simp [State.readM, h]

theorem State.readM_congr (h : s.m = t.m) : s.readM = t.readM := by
  funext i; simp [State.readM, h]

theorem State.readM_agree {i : Fin 8} (h : s.m[i] = t.m[i]) : s.readM i = t.readM i := by
  simp only [State.readM, h]

theorem State.readCH_held {i : Fin 8} {x : Word} (h : s.ch[i] = .held x) : s.readCH i = x := by
  simp [State.readCH, h]

theorem State.readCH_congr (h : s.ch = t.ch) : s.readCH = t.readCH := by
  funext i; simp [State.readCH, h]

theorem State.readCH_agree {i : Fin 8} (h : s.ch[i] = t.ch[i]) : s.readCH i = t.readCH i := by
  simp only [State.readCH, h]

theorem State.readOUT_held {i : Fin 4} {x : Word} (h : s.out[i] = .held x) : s.readOUT i = x := by
  simp [State.readOUT, h]

theorem State.readOUT_congr (h : s.out = t.out) : s.readOUT = t.readOUT := by
  funext i; simp [State.readOUT, h]

theorem State.readOUT_agree {i : Fin 4} (h : s.out[i] = t.out[i]) : s.readOUT i = t.readOUT i := by
  simp only [State.readOUT, h]

/-! A read after a write gives the value written, and a write leaves every other element alone. -/

@[simp] theorem State.readV_writeV_self (ok : Bool) (i : Fin 16) (w : Word) : (s.writeV ok i w).readV i = w := by
  simp [State.readV]

theorem State.readV_writeV_ne {ok : Bool} {i j : Fin 16} (w : Word) (h : i ≠ j) :
    (s.writeV ok i w).readV j = s.readV j := by
  simp [State.readV, Fin.val_ne_of_ne h]

@[simp] theorem State.readM_writeV (ok : Bool) (i : Fin 16) (w : Word) : (s.writeV ok i w).readM = s.readM := rfl

@[simp] theorem State.readV_loadV (ok : Bool) (f : Fin 16 → Word) (i : Fin 16) : (s.loadV ok f).readV i = f i := by
  simp [State.readV]

@[simp] theorem State.readM_loadM (ok : Bool) (f : Fin 8 → Word) (j : Fin 8) : (s.loadM ok f).readM j = f j := by
  simp [State.readM]

@[simp] theorem State.readCH_loadCH (ok : Bool) (f : Fin 8 → Word) (i : Fin 8) : (s.loadCH ok f).readCH i = f i := by
  simp [State.readCH]

@[simp] theorem State.readOUT_loadOUT (ok : Bool) (f : Fin 4 → Word) (i : Fin 4) : (s.loadOUT ok f).readOUT i = f i := by
  simp [State.readOUT]

@[simp] theorem State.readV_advance : s.advance.readV = s.readV := rfl
@[simp] theorem State.readM_advance : s.advance.readM = s.readM := rfl
@[simp] theorem State.readCH_advance : s.advance.readCH = s.readCH := rfl
@[simp] theorem State.readOUT_advance : s.advance.readOUT = s.readOUT := rfl

/-! The operand forms. -/

/-- A non-zero field spells the amount of the same value (40_rotate.md R93). -/
theorem Amount.ofField_some {n : Fin 64} {k : Amount} (h : n.val = k.val) : Amount.ofField n = some k := by
  have := k.pos
  obtain ⟨v, p, l⟩ := k
  simp_all [Amount.ofField]

/-- The zero field spells no amount. -/
theorem Amount.ofField_zero : Amount.ofField 0 = none := by decide

/-- A field spells an amount unless it is zero. -/
theorem Amount.ofField_ne_zero {n : Fin 64} (h : n ≠ 0) : ∃ k : Amount, Amount.ofField n = some k ∧ k.val = n.val := by
  have hn : 1 ≤ n.val := Nat.one_le_iff_ne_zero.mpr fun h0 => h (Fin.ext h0)
  exact ⟨⟨n.val, hn, by omega⟩, by simp [Amount.ofField, hn], rfl⟩

/-- A micro-op is readable exactly when every element it reads holds a value (10_state.md R32). -/
theorem State.readable_iff {i : Instr} : s.readable i = true ↔ ∀ e ∈ reads i, s.holds e = true := by
  simp [State.readable]

/-! The host's moves and resting. -/

/-- `START` in `IDLE` or `DONE` (45_sequencer.md R152). -/
theorem State.hostStart_accepted (data : List Byte) (h : s.status = .idle ∨ s.status = .done) :
    s.hostStart data =
      { s.clearDatapath with din := data, ecause := .none, upc := 0, status := .busy } := by
  rcases h with h | h <;> simp [State.hostStart, h]

/-- `START` in `BUSY` or `ERROR` (R153). -/
theorem State.hostStart_ignored (data : List Byte) (h : s.status = .busy ∨ s.status = .error) :
    s.hostStart data = s := by
  rcases h with h | h <;> simp [State.hostStart, h]

/-- A resting step that goes on changes nothing. -/
theorem State.restStep_next (h : s.restStep = .next t) : t = s := by
  simp only [State.restStep] at h
  split at h <;> simp_all

/-- The digest is there exactly when every byte of `DG` holds it. -/
theorem State.digest?_some (d : Vector Byte 32) :
    s.digest? = some d ↔ ∀ k : Fin 32, s.dg[k] = .held d[k] := by
  unfold State.digest?
  constructor
  · intro h
    split at h
    · rename_i hall
      rw [List.all_eq_true] at hall
      intro k
      have hk := hall k (List.mem_finRange k)
      cases h
      cases hb : s.dg[k] with
      | held x => simp [hb, -Fin.getElem_fin]
      | free x => simp [hb] at hk
    · cases h
  · intro h
    have hall : ((List.finRange 32).all fun k => s.dg[k].isHeld) = true := by
      rw [List.all_eq_true]
      intro k _
      rw [h k]; rfl
    rw [if_pos hall]
    congr 1
    exact file_ext fun k => by simp [h k, -Fin.getElem_fin]

/-- The host's read of the digest succeeds exactly in `DONE` with all 32 bytes written. -/
theorem State.hostReadDG_some (d : Vector Byte 32) :
    s.hostReadDG = some d ↔ s.status = .done ∧ s.digest? = some d := by
  unfold State.hostReadDG
  split <;> simp_all

end Sys2Proof.Machine
end

