-- ==== Sys2Proof/Laws/Mix.lean ====
section
/-! SUPPORT. What the eight steps of the mixer give on four distinct registers: the four words of `Gf`, written
to the four registers (41_mixer.md R101). -/

namespace Sys2Proof.Machine

theorem distinct4_iff {a b c d : Fin 16} :
    distinct4 a b c d = true ↔ a ≠ b ∧ a ≠ c ∧ a ≠ d ∧ b ≠ c ∧ b ≠ d ∧ c ≠ d := by
  simp [distinct4, and_assoc]

/-- The sequential steps on distinct registers are `Gf` of the four registers' contents before them. -/
theorem State.mix_eq (s : State) (ok : Bool) {a b c d : Fin 16} (mx my : Word) (h : distinct4 a b c d = true) :
    s.mix ok a b c d mx my = { s with
      v := (((s.v.set a (.written ok (Gf (s.readV a) (s.readV b) (s.readV c) (s.readV d) mx my).1)).set b
        (.written ok (Gf (s.readV a) (s.readV b) (s.readV c) (s.readV d) mx my).2.1)).set c
        (.written ok (Gf (s.readV a) (s.readV b) (s.readV c) (s.readV d) mx my).2.2.1)).set d
        (.written ok (Gf (s.readV a) (s.readV b) (s.readV c) (s.readV d) mx my).2.2.2) } := by
  obtain ⟨ab, ac, ad, bc, bd, cd⟩ := distinct4_iff.mp h
  unfold State.mix
  simp only [State.readV_writeV_self, State.readV_writeV_ne, ne_eq, ab, ac, ad, bc, bd, cd, ab.symm, ac.symm,
    ad.symm, bc.symm, bd.symm, cd.symm, not_false_eq_true]
  simp only [State.writeV]
  congr 1
  have := Fin.val_ne_of_ne ab; have := Fin.val_ne_of_ne ac; have := Fin.val_ne_of_ne ad
  have := Fin.val_ne_of_ne bc; have := Fin.val_ne_of_ne bd; have := Fin.val_ne_of_ne cd
  apply Vector.ext
  intro k hk
  simp only [Vector.getElem_set, Gf]
  by_cases kd : d.val = k <;> by_cases kc : c.val = k <;> by_cases kb : b.val = k <;> by_cases ka : a.val = k <;>
    first
    | (exfalso; omega)
    | simp [kd, kc, kb, ka]

end Sys2Proof.Machine
end

