-- ==== Sys2Proof/Laws/Exec.lean ====
section
/-! SUPPORT. What `exec` can do, said once: a legal micro-op gives its result, whatever the state. -/

namespace Sys2Proof.Machine

/-- The state a legal micro-op leaves, by the rule of each; what it writes holds a value where every source did. -/
def result (i : Instr) (s : State) : State :=
  match i with
  | .rotr vd vs n =>
    match Amount.ofField n with
    | some k => (s.writeV (s.readable (.rotr vd vs n)) vd (rotr64 (s.readV vs) k)).advance
    | none => s
  | .g a b c d ix iy =>
    (s.mix (s.readable (.g a b c d ix iy)) a b c d (s.messageOperand ix) (s.messageOperand iy)).advance
  | .mrot => (s.loadM (s.readable .mrot) fun j => s.readM (j + 1)).advance
  | .pack => (s.loadM true (packWord s.din)).advance
  | .init => (s.loadV (s.readable .init) (initWord s.cfg.iv s.readM)).advance
  | .fold => (s.loadCH (s.readable .fold) (foldWord s.cfg s.readV)).advance
  | .final => (s.loadOUT (s.readable .final) (finalWord s.readCH)).advance
  | .ser => (s.loadDG (s.readable .ser) (digestByte s.readOUT)).advance
  | .halt => s.setStatus .done

variable {s t : State} {i : Instr}

/-- A legal micro-op completes with its result. -/
theorem exec_legal (hw : i.wellFormed = true) : exec i s = .next (result i s) := by
  cases i with
  | rotr vd vs n =>
    obtain ⟨k, hk, -⟩ := Amount.ofField_ne_zero (n := n) (by simpa [Instr.wellFormed] using hw)
    simp only [exec, execRotr, result, hk]
  | g a b c d ix iy =>
    have hd : distinct4 a b c d = true := hw
    simp only [exec, execG, hd, if_true, result]
  | mrot | init | fold | final | ser | pack | halt => rfl

/-- The result of `G` as one update: the four words of `Gf`, marked by whether every source held a value (R100, R101). -/
theorem result_g {a b c d : Fin 16} (ix iy : Fin 8) (h : distinct4 a b c d = true) :
    result (.g a b c d ix iy) s =
      let r := Gf (s.readV a) (s.readV b) (s.readV c) (s.readV d) (s.readM ix) (s.readM iy)
      let ok := s.readable (.g a b c d ix iy)
      { s with
        v := (((s.v.set a (.written ok r.1)).set b (.written ok r.2.1)).set c (.written ok r.2.2.1)).set d
          (.written ok r.2.2.2)
        upc := s.upc + 1 } := by
  simp only [result, State.mix_eq _ _ _ _ h, State.messageOperand]; rfl

/-- A term no legal word spells takes `IllegalUop` (log 10). -/
theorem exec_illFormed (hw : i.wellFormed = false) : exec i s = .next s.takeIllegalUop := by
  cases i with
  | rotr vd vs n =>
    obtain rfl : n = 0 := by simpa [Instr.wellFormed] using hw
    simp only [exec, execRotr, Amount.ofField_zero]
  | g a b c d ix iy =>
    have hd : distinct4 a b c d = false := hw
    simp only [exec, execG, hd]; rfl
  | mrot | init | fold | final | ser | pack | halt => cases hw

/-- A legal micro-op that goes on gives its result. -/
theorem exec_next (hw : i.wellFormed = true) (h : exec i s = .next t) : t = result i s := by
  rw [exec_legal hw] at h; cases h; rfl

end Sys2Proof.Machine
end

