-- ==== Sys2Proof/Laws/PerInstr.lean ====
section
/-! SUPPORT. Statements about every micro-op as syntax, one lemma per constructor: the word `encode` gives
agrees with the row of opcode_table.json, its pattern under its mask. -/

namespace Sys2Proof.Laws.TableRow

/-- The row's mask in opcode_table.json: the bits that have one value in every word of the micro-op. -/
def mask : Instr → UWord
  | .rotr _ _ _ => 0xF00FFFC0#32
  | .g _ _ _ _ _ _ => 0xF000003F#32
  | .mrot | .pack | .init | .fold | .final | .ser | .halt => 0xFFFFFFFF#32

/-- The row's pattern in opcode_table.json: the values of those bits. -/
def pattern : Instr → UWord
  | .rotr _ _ _ => 0x10000000#32
  | .g _ _ _ _ _ _ => 0x20000000#32
  | .mrot => 0x30000000#32
  | .pack => 0x40000000#32
  | .init => 0x50000000#32
  | .fold => 0x60000000#32
  | .final => 0x70000000#32
  | .ser => 0x80000000#32
  | .halt => 0x90000000#32

/-- The word of a micro-op has its row's pattern under its row's mask. -/
def Statement (i : Instr) : Prop := encode i &&& mask i = pattern i

/-- A field that fits below a mask's clear bits does not show under the mask. -/
theorem place_and {v n lo : Nat} (m : UWord) (h : ∀ x : Fin n, place x.val lo &&& m = 0) (hv : v < n) :
    place v lo &&& m = 0 := h ⟨v, hv⟩

theorem or_and (x y m : UWord) : (x ||| y) &&& m = (x &&& m) ||| (y &&& m) := by
  ext i; simp [Bool.and_or_distrib_right]

theorem rotr (vd vs : Fin 16) (n : Fin 64) : Statement (.rotr vd vs n) := by
  show (0x10000000#32 ||| place vd 24 ||| place vs 20 ||| place n 0) &&& 0xF00FFFC0#32 = 0x10000000#32
  simp only [or_and,
    place_and (n := 16) (lo := 24) 0xF00FFFC0#32 (by decide) vd.isLt,
    place_and (n := 16) (lo := 20) 0xF00FFFC0#32 (by decide) vs.isLt,
    place_and (n := 64) (lo := 0) 0xF00FFFC0#32 (by decide) n.isLt]
  decide

theorem g (a b c d : Fin 16) (ix iy : Fin 8) : Statement (.g a b c d ix iy) := by
  show (0x20000000#32 ||| place a 24 ||| place b 20 ||| place c 16 ||| place d 12 ||| place ix 9 |||
    place iy 6) &&& 0xF000003F#32 = 0x20000000#32
  simp only [or_and,
    place_and (n := 16) (lo := 24) 0xF000003F#32 (by decide) a.isLt,
    place_and (n := 16) (lo := 20) 0xF000003F#32 (by decide) b.isLt,
    place_and (n := 16) (lo := 16) 0xF000003F#32 (by decide) c.isLt,
    place_and (n := 16) (lo := 12) 0xF000003F#32 (by decide) d.isLt,
    place_and (n := 8) (lo := 9) 0xF000003F#32 (by decide) ix.isLt,
    place_and (n := 8) (lo := 6) 0xF000003F#32 (by decide) iy.isLt]
  decide

theorem mrot : Statement .mrot := by unfold Statement; decide
theorem pack : Statement .pack := by unfold Statement; decide
theorem init : Statement .init := by unfold Statement; decide
theorem fold : Statement .fold := by unfold Statement; decide
theorem final : Statement .final := by unfold Statement; decide
theorem ser : Statement .ser := by unfold Statement; decide
theorem halt : Statement .halt := by unfold Statement; decide

end Sys2Proof.Laws.TableRow
end

