-- ==== Sys2Proof/Laws/Safety.lean ====
section
/-! SUPPORT. The small lemmas of the terms claims use: files that are held, the micro-op due. -/

namespace Sys2Proof.Machine

/-- A file written whole with values is held whole. -/
theorem allHeld_tabulate {α : Type} {n : Nat} (f : Fin n → α) : allHeld (tabulate fun k => .written true (f k)) := by
  intro k; simp

/-- A file written whole is held whole or not at all. -/
theorem whole_tabulate {α : Type} {n : Nat} (ok : Bool) (f : Fin n → α) :
    allHeld (tabulate fun k => .written ok (f k)) ∨ noneHeld (tabulate fun k => .written ok (f k)) := by
  cases ok
  · right; intro k; simp
  · left; intro k; simp

/-- Writing a value to an element of a held file keeps it held. -/
theorem allHeld_set {α : Type} {n : Nat} {xs : Vector (Reg α) n} (h : allHeld xs) (i : Fin n) (x : α) :
    allHeld (xs.set i (.held x)) := by
  intro k
  simp only [Fin.getElem_fin, Vector.getElem_set]
  split
  · rfl
  · exact h k

/-- A cleared file holds nothing. -/
theorem noneHeld_free {α : Type} {n : Nat} (f : Fin n → α) : noneHeld (tabulate fun k => Reg.free (f k)) := by
  intro k; simp

/-- A held file holds a word at every index. -/
theorem allHeld_iff {α : Type} {n : Nat} {xs : Vector (Reg α) n} :
    allHeld xs ↔ ∃ f : Fin n → α, ∀ k : Fin n, xs[k] = .held (f k) := by
  constructor
  · intro h
    refine ⟨fun k => xs[k].bits, fun k => ?_⟩
    have hk := h k
    cases hx : xs[k] with
    | held x => simp only [hx, Reg.bits_held]
    | free x => simp [hx] at hk
  · rintro ⟨f, hf⟩ k
    rw [hf k]; rfl

/-- An element holds a value exactly when it is held. -/
theorem State.holds_eq (s : State) (e : Elem) : s.holds e = (s.element e).isHeld := by
  cases e <;> rfl

/-- The spec does not refuse a micro-op exactly when it is readable (10_state.md R32). -/
theorem not_specRefuses_iff {s : State} {i : Instr} : ¬ specRefuses i s ↔ s.readable i = true := by
  simp [specRefuses, State.readable]

/-- The micro-op due does not depend on what the host is going to do, nor on the datapath. -/
theorem State.due?_congr {s t : State} (hc : s.cfg = t.cfg) (hu : s.upc = t.upc) : s.due? = t.due? := by
  simp [State.due?, State.fetchUop, hc, hu]

/-- The micro-op due, from the word in the ROM. -/
theorem State.due?_of_word {s : State} {w : UWord} {i : Instr} (h : s.cfg.uprog[s.upc.toNat]? = some w)
    (hd : decode w = .legal i) : s.due? = some i := by
  simp [State.due?, State.fetchUop, h, hd]

end Sys2Proof.Machine
end

