-- ==== Sys2Proof/Laws/Step.lean ====
section
/-! SUPPORT. What one step of the machine can do, said once: the inversion lemmas of `sequencerStep`,
`coreStep` and `step`, and of runs. -/

namespace Sys2Proof.Machine

variable {s t : State}

/-- A step of the sequencer that goes on either takes `IllegalUop` or executes the micro-op due
(45_sequencer.md R155). -/
theorem sequencerStep_next (h : sequencerStep s = .next t) :
    (s.due? = none ∧ t = s.takeIllegalUop) ∨ ∃ i, s.due? = some i ∧ exec i s = .next t := by
  unfold sequencerStep at h
  unfold State.due?
  split at h
  · simp_all
  · split at h <;> simp_all

/-- With no legal micro-op due the sequencer takes `IllegalUop`. -/
theorem sequencerStep_illegal (h : s.due? = none) : sequencerStep s = .next s.takeIllegalUop := by
  unfold State.due? at h
  unfold sequencerStep
  split
  · rfl
  · split <;> simp_all

/-- With a legal micro-op due the sequencer executes it. -/
theorem sequencerStep_due {i : Instr} (h : s.due? = some i) : sequencerStep s = exec i s := by
  unfold State.due? at h
  unfold sequencerStep
  split
  · simp_all
  · split <;> simp_all

/-- A step of the core that goes on rests outside `BUSY` and is the sequencer's in `BUSY`. -/
theorem coreStep_next (h : coreStep s = .next t) :
    (s.status = .busy ∧ sequencerStep s = .next t) ∨ (s.status ≠ .busy ∧ t = s) := by
  unfold coreStep at h
  split at h <;> simp_all <;> exact State.restStep_next _ _ h

/-- What a step that goes on can be: a host's `START` or `RESET`, or a step of the core at a boundary at
which the host does nothing. -/
theorem step_next (h : step s = .next t) :
    (∃ data rest, s.host = .start data :: rest ∧ t = State.hostStart { s with host := rest } data) ∨
    (∃ rest, s.host = .reset :: rest ∧ t = State.hostReset { s with host := rest }) ∨
    (∃ rest, s.host = .pass :: rest ∧ coreStep { s with host := rest } = .next t) ∨
    (s.host = [] ∧ coreStep s = .next t) := by
  unfold step boundaryStep at h
  split at h <;> simp_all

/-- One more step at the front of a run. -/
theorem run_succ (k : Nat) (h : step s = .next t) : run (k + 1) s = run k t := by
  have h' : Sys2Proof.core.step s = .next t := h
  simp only [run, Host.Core.run, h']
  rfl

@[simp] theorem run_zero : run 0 s = .next s := rfl

/-- Executing a list of micro-ops in two parts. -/
theorem execAll_append (xs ys : List Instr) (h : execAll xs s = .next t) :
    execAll (xs ++ ys) s = execAll ys t := by
  induction xs generalizing s with
  | nil => simp_all [execAll]
  | cons i rest ih =>
    simp only [execAll, List.cons_append] at h ⊢
    split at h
    · exact ih h
    · cases h
    · cases h

end Sys2Proof.Machine
end

