-- ==== Sys2Proof/Tests/Slice0.lean ====
section
/-! SUPPORT. Tests with expected values from the spec (95_test_vectors.md and the worked examples of the rules),
the smoke test of `wellFormed`, and witnesses that the hypotheses of the statements can be met. -/

namespace Sys2Proof.Tests

open Sys2Proof.Machine

/-! ### Well-formedness: an ill-formed term for each check (30_encoding.md R74) -/

theorem test_wellFormed_refuses_zero_amount : (Instr.rotr 0 1 0).wellFormed = false := by decide
theorem test_wellFormed_refuses_aliased_indices :
    (Instr.g 0 0 8 12 0 1).wellFormed = false ∧ (Instr.g 4 0 4 12 0 1).wellFormed = false ∧
    (Instr.g 4 0 8 4 0 1).wellFormed = false ∧ (Instr.g 0 8 8 12 0 1).wellFormed = false ∧
    (Instr.g 0 12 8 12 0 1).wellFormed = false ∧ (Instr.g 0 4 8 8 0 1).wellFormed = false := by decide
theorem test_wellFormed_accepts :
    (Instr.rotr 2 2 63).wellFormed = true ∧ (Instr.g 0 1 2 3 7 7).wellFormed = true := by decide

/-! ### Decoding (95_test_vectors.md section 8; 30_encoding.md R72 to R74) -/

theorem test_decode_rotr :
    decode 0x10100001#32 = .legal (.rotr 0 1 1) ∧ decode 0x1010003F#32 = .legal (.rotr 0 1 63) ∧
    decode 0x1220003F#32 = .legal (.rotr 2 2 63) ∧ decode 0x13800008#32 = .legal (.rotr 3 8 8) ∧
    decode 0x1FF0003F#32 = .legal (.rotr 15 15 63) ∧ decode 0x10000001#32 = .legal (.rotr 0 0 1) := by decide
theorem test_decode_g :
    decode 0x2048C040#32 = .legal (.g 0 4 8 12 0 1) ∧ decode 0x2159D4C0#32 = .legal (.g 1 5 9 13 2 3) ∧
    decode 0x226AE940#32 = .legal (.g 2 6 10 14 4 5) ∧ decode 0x237BFDC0#32 = .legal (.g 3 7 11 15 6 7) ∧
    decode 0x205AF280#32 = .legal (.g 0 5 10 15 1 2) ∧ decode 0x216BC700#32 = .legal (.g 1 6 11 12 3 4) ∧
    decode 0x2278DB80#32 = .legal (.g 2 7 8 13 5 6) ∧ decode 0x2349EE00#32 = .legal (.g 3 4 9 14 7 0) := by decide
theorem test_decode_g_corners :
    decode 0x20123000#32 = .legal (.g 0 1 2 3 0 0) ∧ decode 0x20123FC0#32 = .legal (.g 0 1 2 3 7 7) ∧
    decode 0x2F0E1D00#32 = .legal (.g 15 0 14 1 6 4) := by decide
/-- Bits 31:28 `0010`, 27:24 `0011`, 23:20 `0100`, 19:16 `1001`, 15:12 `1110`, 11:9 `111`, 8:6 `000`, 5:0 zero
(95_test_vectors.md section 8, field assembly). -/
theorem test_decode_g_bits :
    decode 0b00100011010010011110111000000000#32 = .legal (.g 3 4 9 14 7 0) := by decide
theorem test_decode_format_n :
    decode 0x30000000#32 = .legal .mrot ∧ decode 0x40000000#32 = .legal .pack ∧
    decode 0x50000000#32 = .legal .init ∧ decode 0x60000000#32 = .legal .fold ∧
    decode 0x70000000#32 = .legal .final ∧ decode 0x80000000#32 = .legal .ser ∧
    decode 0x90000000#32 = .legal .halt := by decide
theorem test_decode_illegal :
    decode 0x00000000#32 = .illegal .unassignedOp ∧ decode 0xFFFFFFFF#32 = .illegal .unassignedOp ∧
    decode 0xA0000000#32 = .illegal .unassignedOp ∧ decode 0x10100000#32 = .illegal .zeroAmount ∧
    decode 0x10100040#32 = .illegal .mbzFormatR ∧ decode 0x2008C040#32 = .illegal .aliasedIndices ∧
    decode 0x2048C041#32 = .illegal .mbzFormatG ∧ decode 0x2012303F#32 = .illegal .mbzFormatG ∧
    decode 0x30000001#32 = .illegal .mbzFormatN ∧ decode 0x90000001#32 = .illegal .mbzFormatN := by decide
theorem test_encode :
    encode (.g 0 4 8 12 0 1) = 0x2048C040#32 ∧ encode (.g 3 4 9 14 7 0) = 0x2349EE00#32 ∧
    encode (.rotr 0 1 1) = 0x10100001#32 ∧ encode (.rotr 2 2 63) = 0x1220003F#32 := by decide
theorem test_decodeTableWord :
    decodeTableWord 32 0x13800008 = some (.rotr 3 8 8) ∧ decodeTableWord 32 0x90000000 = some .halt ∧
    decodeTableWord 32 0 = none := by decide

/-! ### The units (95_test_vectors.md sections 2, 3, 5) -/

theorem test_rotr64 :
    rotr64 0x8000000000000001#64 ⟨1, by decide, by decide⟩ = 0xC000000000000000#64 ∧
    rotr64 0x0123456789ABCDEF#64 amount63 = 0x02468ACF13579BDE#64 ∧
    rotr64 0x0123456789ABCDEF#64 amount24 = 0xABCDEF0123456789#64 ∧
    rotr64 0xDEADBEEFCAFEF00D#64 ⟨7, by decide, by decide⟩ = 0x1BBD5B7DDF95FDE0#64 := by decide
/-- Vector G-9: every addition wraps. -/
theorem test_Gf_all_ones :
    Gf 0xFFFFFFFFFFFFFFFF#64 0xFFFFFFFFFFFFFFFF#64 0xFFFFFFFFFFFFFFFF#64 0xFFFFFFFFFFFFFFFF#64
      0xFFFFFFFFFFFFFFFF#64 0xFFFFFFFFFFFFFFFF#64 =
    (0x000000FFFFFFFDFC#64, 0xFBF801FBFE0403FD#64, 0xFDFC000200FDFFFE#64, 0xFDFC000000FDFFFF#64) := by decide
/-- Vector G-10. -/
theorem test_Gf_small :
    Gf 1 2 3 4 5 5 =
    (0x0000010000000C0D#64, 0x181A021802181806#64, 0x0C0D000C010C0003#64, 0x0C0D0000010C0000#64) := by decide

/-! ### States -/

/-- The example value `IVT` of 95_test_vectors.md section 1. -/
def ivt : Vector Word 4 :=
  #v[0x0123456789ABCDEF#64, 0xFEDCBA9876543210#64, 0x0F1E2D3C4B5A6978#64, 0x8796A5B4C3D2E1F0#64]

/-- The state after reset with `IV = IVT` and the ROM `prog`, the host about to make `moves`. -/
def atReset (prog : List UWord) (moves : List HostMove) : State :=
  { State.reset with cfg := { iv := ivt, uprog := prog, foldUsesSeed := false }, host := moves }

/-- A call in progress at `UPC = 0` of the ROM `prog`, every element holding no value. -/
def inCall (prog : List UWord) : State := { atReset prog [] with status := .busy }

/-- The same with every element of the 64-bit files held: element `k` of a file holds `k + 1`. -/
def heldCall (prog : List UWord) : State :=
  { inCall prog with
    v := tabulate fun k => Reg.held (BitVec.ofNat 64 (k.val + 1))
    m := tabulate fun k => Reg.held (BitVec.ofNat 64 (k.val + 1))
    ch := tabulate fun k => Reg.held (BitVec.ofNat 64 (k.val + 1))
    out := tabulate fun k => Reg.held (BitVec.ofNat 64 (k.val + 1)) }

/-- The next state of an outcome, `State.reset` where there is none. -/
def nextOf (o : Host.Outcome State Fault Refusal) : State :=
  match o with
  | .next s => s
  | _ => State.reset

/-- A field of the next state. -/
def after {α : Type} (o : Host.Outcome State Fault Refusal) (f : State → α) : Option α :=
  match o with
  | .next s => some (f s)
  | _ => none

/-! ### One step -/

/-- Worked example of 40_rotate.md R92. -/
theorem test_rotr :
    after (step { inCall [0x10100001#32] with v := (inCall []).v.set 1 (Reg.held 0xFEDCBA9876543210#64) })
      (fun t => (t.v[0], t.v[1], t.v[2].isHeld, t.upc)) =
    some (.held 0x7F6E5D4C3B2A1908#64, .held 0xFEDCBA9876543210#64, false, 1) := by decide
/-- Program P1 of 95_test_vectors.md, index 3: source and destination the same register. -/
theorem test_rotr_in_place :
    after (exec (.rotr 2 2 63) { inCall [] with v := (inCall []).v.set 2 (Reg.held 0x0F1E2D3C4B5A6978#64) })
      (fun t => t.v[2]) = some (Reg.held 0x1E3C5A7896B4D2F0#64) := by decide
/-- Vector G-10 with `ix = iy`: registers 0 to 3 hold 1 to 4 and `M[4]` holds 5. -/
theorem test_g :
    after (step (heldCall [0x20123900#32])) (fun t => ([t.v[0], t.v[1], t.v[2], t.v[3], t.v[4]], t.upc)) =
    some ([Reg.held 0x0000010000000C0D#64, Reg.held 0x181A021802181806#64, Reg.held 0x0C0D000C010C0003#64,
      Reg.held 0x0C0D0000010C0000#64, Reg.held 5], 1) := by decide
/-- 95_test_vectors.md section 4. -/
theorem test_mrot :
    after (step (heldCall [0x30000000#32])) (fun t => (t.m, t.upc)) =
    some (#v[Reg.held 2, Reg.held 3, Reg.held 4, Reg.held 5, Reg.held 6, Reg.held 7, Reg.held 8, Reg.held 1], 1) := by decide
/-- 95_test_vectors.md section 5.1: nine bytes. -/
theorem test_pack_nine_bytes :
    after (step { inCall [0x40000000#32] with din := [1, 2, 3, 4, 5, 6, 7, 8, 9] }) (fun t => t.m) =
    some #v[Reg.held 0x0807060504030201#64, Reg.held 9, Reg.held 0, Reg.held 0, Reg.held 0, Reg.held 0, Reg.held 0, Reg.held 0] := by decide
/-- 95_test_vectors.md section 5.1: 64 bytes `FF` then `01`. -/
theorem test_pack_truncates :
    after (exec .pack { inCall [] with din := List.replicate 64 0xFF#8 ++ [1] }) (fun t => t.m) =
    some (Vector.replicate 8 (Reg.held 0xFFFFFFFFFFFFFFFF#64)) := by decide
/-- 43_codec_compressor.md R127, worked example. -/
theorem test_init :
    after (step { inCall [0x50000000#32] with m := (Vector.replicate 8 (Reg.held 0)).set 0 (Reg.held 0x636261#64) })
      (fun t => [t.v[0], t.v[4], t.v[3], t.v[7], t.v[8], t.v[15]]) =
    some [Reg.held 0x0123456789ABCDEF#64, Reg.held 0x0123456789ABCDEF#64, Reg.held 0x8796A5B4C3D2E1F0#64,
      Reg.held 0x8796A5B4C3D2E1F0#64, Reg.held 0x636261#64, Reg.held 0] := by decide
/-- 43_codec_compressor.md R129: element `k` holds `k + 1`, so `CH[0] = 1 XOR 9`, `CH[3] = 4 XOR 12`,
`CH[4] = 5 XOR 1`, `CH[7] = 8 XOR 4`. -/
theorem test_fold :
    after (step (heldCall [0x60000000#32])) (fun t => (t.ch[0], t.ch[3], t.ch[4], t.ch[7])) =
    some (Reg.held 8, Reg.held 8, Reg.held 4, Reg.held 12) := by decide
/-- 44_finalizer.md R140: `OUT[0] = 1 XOR 5`, `OUT[3] = 4 XOR 8`. -/
theorem test_final :
    after (step (heldCall [0x70000000#32])) (fun t => (t.out[0], t.out[3])) = some (Reg.held 4, Reg.held 12) := by decide
/-- 95_test_vectors.md section 5.5. -/
theorem test_ser :
    after (step { heldCall [0x80000000#32] with out := #v[Reg.held 0xB48B392321272B2A#64, Reg.held 0xC869516DD97846A8#64,
      Reg.held 0xFF8147F9DAFC38F8#64, Reg.held 0x0A8A7EB2447F7861#64] }) (fun t => t.dg.toList.map Reg.value?) =
    some ([0x2A, 0x2B, 0x27, 0x21, 0x23, 0x39, 0x8B, 0xB4, 0xA8, 0x46, 0x78, 0xD9, 0x6D, 0x51, 0x69, 0xC8,
      0xF8, 0x38, 0xFC, 0xDA, 0xF9, 0x47, 0x81, 0xFF, 0x61, 0x78, 0x7F, 0x44, 0xB2, 0x7E, 0x8A, 0x0A].map some) := by decide
theorem test_halt :
    after (step (inCall [0x90000000#32])) (fun t => (t.status, t.upc)) = some (.done, 0) := by decide

/-- Program P4 of 95_test_vectors.md: an illegal word. -/
theorem test_illegal_word_faults :
    after (step (inCall [0x2008C040#32])) (fun t => (t.status, t.ecause, t.upc)) =
    some (.error, .illegalUop, 0) := by decide
/-- Program P6: a fetch past the end. -/
theorem test_fetch_past_end_faults :
    after (step { inCall [0x40000000#32, 0x30000000#32] with upc := 2 }) (fun t => (t.status, t.ecause, t.upc)) =
    some (.error, .illegalUop, 2) := by decide
/-- Program P5: the spec refuses `INIT`; the model's step goes on, and nothing it wrote holds a value (log 1). -/
theorem test_no_value_read :
    specRefuses .init (inCall [0x50000000#32]) ∧
    after (step (inCall [0x50000000#32])) (fun t => (t.v[0].isHeld, t.v[8].isHeld, t.upc)) = some (false, false, 1) :=
  ⟨⟨.m 0, by decide, rfl⟩, by decide⟩
/-- `SER` with `OUT` unwritten, then `HALT`: the host is given no digest (log 1; 20_memory.md R61). -/
theorem test_ser_of_no_value_gives_no_digest :
    after (step { inCall [0x80000000#32] with upc := 0 }) (fun t => (t.upc, State.hostReadDG (t.setStatus .done))) =
    some (1, none) := by decide
/-- 60_exceptions.md R173: an illegal word faults even if its fields name registers that hold no value. -/
theorem test_fault_before_refusal :
    after (step (inCall [0x10100000#32])) State.status = some .error := by decide
theorem test_start_then_first_fetch :
    after (step (atReset hashProg [.start [0x61#8]])) (fun t => (t.status, t.din, t.due?)) =
    some (.busy, [0x61#8], some .pack) := by decide
theorem test_withFetchWord :
    (State.reset.withFetchWord 32 0x30000000).due? = some .mrot ∧
    (State.reset.withFetchWord 32 0x30000000).status = .busy ∧
    after (step (State.reset.withFetchWord 32 0x30000000)) (fun t => t.upc) = some 1 := by decide

/-! ### The function (95_test_vectors.md section 7, `IVT`, both readings of the fold) -/

theorem test_hash_abc :
    hashFn { iv := ivt, uprog := [], foldUsesSeed := false } [0x61, 0x62, 0x63] =
    #v[0xfe, 0x55, 0x7d, 0xe6, 0x81, 0xd0, 0x92, 0x99, 0x77, 0xb5, 0x1f, 0xf1, 0x03, 0x6c, 0xb4, 0xb9,
      0x8a, 0xa9, 0x65, 0xfe, 0x19, 0x9f, 0x3d, 0x13, 0xd6, 0xac, 0x50, 0x3c, 0xc5, 0x2c, 0x54, 0x24] := by
  decide +kernel
theorem test_hash_abc_seed_reading :
    hashFn { iv := ivt, uprog := [], foldUsesSeed := true } [0x61, 0x62, 0x63] =
    #v[0x9e, 0xe3, 0xfc, 0x64, 0xaa, 0xe7, 0x60, 0x25, 0xa2, 0xee, 0xd2, 0xe3, 0xfc, 0xf9, 0x8b, 0xb3,
      0xa2, 0xa6, 0x10, 0x01, 0x7a, 0xf4, 0xf1, 0x4a, 0x57, 0xe2, 0xee, 0xd7, 0x46, 0x1f, 0xe7, 0x98] := by
  decide +kernel

/-! ### Witnesses: the hypotheses of each statement can be met, clause by clause -/

/-- The state in which `w` is the word due and the 64-bit files are held. -/
def dueCall (w : UWord) : State := heldCall [w]

/-- A call with the files held, about to fold, under a value of the switch and of `IV`. -/
def foldCall (seed : Bool) (iv : Vector Word 4) : State :=
  { heldCall [0x60000000#32] with cfg := { iv := iv, uprog := [0x60000000#32], foldUsesSeed := seed } }

theorem dueCall_fetches (w : UWord) : (dueCall w).fetches w := ⟨rfl, rfl, rfl⟩
theorem inCall_fetches (w : UWord) : (inCall [w]).fetches w := ⟨rfl, rfl, rfl⟩

theorem test_witness_DecodeOfEncode :
    (Instr.rotr 15 15 63).wellFormed = true ∧ (Instr.g 15 0 14 1 7 7).wellFormed = true ∧
    Instr.halt.wellFormed = true := by decide
theorem test_witness_EncodeOfDecode :
    decode 0x1FF0003F#32 = .legal (.rotr 15 15 63) ∧ decode 0x90000000#32 = .legal .halt := by decide
theorem test_witness_IllegalWordsExactly :
    (dueCall 0xFFFFFFFF#32).fetches 0xFFFFFFFF#32 ∧ decode 0xFFFFFFFF#32 = .illegal .unassignedOp ∧
    (63 : Fin 64) ≠ 0 ∧ distinct4 12 13 14 15 = true :=
  ⟨dueCall_fetches _, by decide⟩
theorem test_witness_StepRunsDecodedInstruction :
    (dueCall 0x30000000#32).status = .busy ∧ (dueCall 0x30000000#32).cfg.uprog[0]? = some 0x30000000#32 ∧
    (dueCall 0x30000000#32).upc = 0 ∧ decode 0x30000000#32 = .legal .mrot ∧ (dueCall 0x30000000#32).host = [] ∧
    ({ dueCall 0x30000000#32 with host := [.pass, .reset] } : State).host = .pass :: [.reset] := by decide
theorem test_witness_TakingIllegalUop_entry :
    (inCall []).status = .busy ∧ (inCall []).host = [] ∧ (inCall []).cfg.uprog[(inCall []).upc.toNat]? = none ∧
    (inCall [0#32]).cfg.uprog[(inCall [0#32]).upc.toNat]? = some 0#32 ∧ decode 0#32 = .illegal .unassignedOp := by
  decide
/-- With a pass due: a fetch past the end, and an illegal word. -/
theorem test_witness_TakingIllegalUopAfterPass :
    ({ inCall [] with host := [.pass] } : State).status = .busy ∧
    (inCall []).cfg.uprog[(inCall []).upc.toNat]? = none ∧
    step { inCall [0#32] with host := [.pass, .reset] } =
      .next { (inCall [0#32]).takeIllegalUop with host := [.reset] } := ⟨rfl, rfl, rfl⟩
theorem test_witness_TakingIllegalUop_sticky :
    (inCall []).takeIllegalUop.status = .error ∧
    step { (inCall []).takeIllegalUop with host := [.start []] } = .next { (inCall []).takeIllegalUop with host := [] } :=
  ⟨rfl, rfl⟩
theorem test_witness_FetchPastTheEndFaults :
    ({ inCall hashProg with upc := 50 } : State).upc.toNat = (inCall hashProg).cfg.uprog.length ∧
    (inCall hashProg).status = .busy ∧ (inCall hashProg).host = [] := by decide
theorem test_witness_StepAndTheSpecsRefusal :
    (inCall [0#32]).status = .busy ∧ (inCall [0#32]).host = [] ∧ (heldCall [0x50000000#32]).status = .busy ∧ (inCall [0#32]).due? = none ∧ (inCall [0x50000000#32]).due? = some .init ∧
    (∃ e ∈ reads .init, (inCall [0x50000000#32]).holds e = false) ∧
    (heldCall [0x50000000#32]).due? = some .init ∧
    (∀ e ∈ reads .init, (heldCall [0x50000000#32]).holds e = true) := by decide
theorem test_witness_RotrRotatesRegister :
    (1 : Fin 64).val = (⟨1, by decide, by decide⟩ : Amount).val ∧ (63 : Fin 64).val = amount63.val ∧
    (heldCall []).v[(15 : Fin 16)] = Reg.held 16 ∧ (inCall []).v[(0 : Fin 16)].isHeld = false := by decide
theorem test_witness_RotrRotatesRegister_words :
    (dueCall 0x10100000#32).fetches 0x10100000#32 ∧ opField 0x10100000#32 = 1 ∧
    (0x10100000#32).extractLsb' 0 6 = 0 ∧
    (dueCall 0x10180001#32).fetches 0x10180001#32 ∧ opField 0x10180001#32 = 1 ∧
    (0x10180001#32).extractLsb' 6 14 ≠ 0 ∧
    (inCall [0x10100001#32]).fetches 0x10100001#32 ∧
    ((inCall []).v.set 1 (Reg.held 0xFEDCBA9876543210#64))[1] = Reg.held 0xFEDCBA9876543210#64 :=
  ⟨dueCall_fetches _, by decide, by decide, dueCall_fetches _, by decide, by decide, inCall_fetches _, by decide⟩
/-- The refusal clause at its boundary: `n = 1` with `V[vs]` holding no value, and holding one. -/
theorem test_witness_RotrRotatesRegister_refusal :
    (1 : Fin 64) ≠ 0 ∧ specRefuses (.rotr 0 15 1) (inCall []) ∧ ¬ specRefuses (.rotr 0 15 1) (heldCall []) :=
  ⟨by decide, ⟨.v 15, by decide, rfl⟩, not_specRefuses_iff.mpr (by decide)⟩
/-- The refusal clause of `G`: distinct indices with one source missing, `V[d]` or `M[iy]`, and with none missing. -/
theorem test_witness_GMixesFourRegisters_refusal :
    distinct4 0 4 8 15 = true ∧
    specRefuses (.g 0 4 8 15 7 0) { heldCall [] with v := (heldCall []).v.set 15 (.free 0) } ∧
    specRefuses (.g 0 4 8 15 7 0) { heldCall [] with m := (heldCall []).m.set 0 (.free 0) } ∧
    ¬ specRefuses (.g 0 4 8 15 7 0) (heldCall []) :=
  ⟨by decide, ⟨.v 15, by decide, rfl⟩, ⟨.m 0, by decide, rfl⟩, not_specRefuses_iff.mpr (by decide)⟩
theorem test_witness_GMixesFourRegisters :
    distinct4 0 4 8 15 = true ∧ (heldCall []).v[(0 : Fin 16)] = Reg.held 1 ∧ (heldCall []).v[(4 : Fin 16)] = Reg.held 5 ∧
    (heldCall []).v[(8 : Fin 16)] = Reg.held 9 ∧ (heldCall []).v[(15 : Fin 16)] = Reg.held 16 ∧
    (heldCall []).m[(7 : Fin 8)] = Reg.held 8 ∧ (heldCall []).m[(0 : Fin 8)] = Reg.held 1 ∧
    (inCall []).v[(0 : Fin 16)].isHeld = false ∧ (inCall []).m[(7 : Fin 8)].isHeld = false := by decide
theorem test_witness_GMixesFourRegisters_words :
    (dueCall 0x2048C041#32).fetches 0x2048C041#32 ∧ opField 0x2048C041#32 = 2 ∧
    (0x2048C041#32).extractLsb' 0 6 ≠ 0 ∧
    (dueCall 0x20488000#32).fetches 0x20488000#32 ∧ opField 0x20488000#32 = 2 ∧
    (0x20488000#32).extractLsb' 16 4 = (0x20488000#32).extractLsb' 12 4 :=
  ⟨dueCall_fetches _, by decide, by decide, dueCall_fetches _, by decide, by decide⟩
theorem test_witness_files_held :
    (∀ j : Fin 8, (heldCall []).m[j] = Reg.held (BitVec.ofNat 64 (j.val + 1))) ∧
    (∀ i : Fin 16, (heldCall []).v[i] = Reg.held (BitVec.ofNat 64 (i.val + 1))) ∧
    (∀ i : Fin 8, (heldCall []).ch[i] = Reg.held (BitVec.ofNat 64 (i.val + 1))) ∧
    (∀ i : Fin 4, (heldCall []).out[i] = Reg.held (BitVec.ofNat 64 (i.val + 1))) := by decide
/-- The first clauses of the statements about `MROT`, `INIT`, `FOLD`, `FINAL`, `SER`, `FinalAfterFold`,
`MrotIterated` and `PermuteRunsFiveRounds` take their files from `test_witness_files_held`; all words equal: -/
theorem test_witness_MrotRotatesOrdering :
    (∀ j : Fin 8, ({ heldCall [] with m := Vector.replicate 8 (Reg.held 5) } : State).m[j] = Reg.held 5) ∧
    (inCall []).m[(7 : Fin 8)].isHeld = false ∧
    (dueCall 0x30000001#32).fetches 0x30000001#32 ∧ opField 0x30000001#32 = 3 ∧ (0x30000001#32).extractLsb' 0 28 ≠ 0 :=
  ⟨by decide, by decide, dueCall_fetches _, by decide, by decide⟩
theorem test_witness_mrot_allHeld : allHeld (heldCall []).m := by unfold allHeld; decide
theorem test_witness_PackFormsMessageBlock :
    (dueCall 0x48000000#32).fetches 0x48000000#32 ∧ opField 0x48000000#32 = 4 ∧ (0x48000000#32).extractLsb' 0 28 ≠ 0 ∧
    ({ inCall [] with din := [0x61, 0x62, 0x63] } : State).din = [0x61#8, 0x62#8, 0x63#8] :=
  ⟨dueCall_fetches _, by decide, by decide, by decide⟩
theorem test_witness_InitBuildsWorkingState :
    (dueCall 0x50000001#32).fetches 0x50000001#32 ∧ opField 0x50000001#32 = 5 ∧ (0x50000001#32).extractLsb' 0 28 ≠ 0 ∧
    (inCall []).m[(0 : Fin 8)].isHeld = false :=
  ⟨dueCall_fetches _, by decide, by decide, by decide⟩
theorem test_witness_InitBuildsWorkingState_example :
    ({ inCall [] with m := #v[Reg.held 0x636261#64, Reg.held 0, Reg.held 0, Reg.held 0, Reg.held 0, Reg.held 0, Reg.held 0, Reg.held 0] } : State).cfg.iv =
      #v[0x0123456789ABCDEF#64, 0xFEDCBA9876543210#64, 0x0F1E2D3C4B5A6978#64, 0x8796A5B4C3D2E1F0#64] := rfl
theorem test_witness_FoldFormsChainingOutput :
    (heldCall []).cfg.foldUsesSeed = false ∧
    (dueCall 0x60000001#32).fetches 0x60000001#32 ∧ opField 0x60000001#32 = 6 ∧ (0x60000001#32).extractLsb' 0 28 ≠ 0 ∧
    (inCall []).v[(15 : Fin 16)].isHeld = false :=
  ⟨rfl, dueCall_fetches _, by decide, by decide, by decide⟩
theorem test_witness_FoldFormsChainingOutput_example :
    allHeld ((((heldCall []).v.set 0 (Reg.held 0x9DD4E1CBAE3D9812#64)).set 4 (Reg.held 0x1FB4DAB8973B9494#64)).set 8
      (Reg.held 0xAB3FE39BB61CBFBE#64)) := by unfold allHeld; decide
theorem test_witness_FoldUnderTheSeedReading :
    ({ heldCall [] with cfg := { (heldCall []).cfg with foldUsesSeed := true } } : State).cfg.foldUsesSeed = true := rfl
theorem test_witness_FinalFormsOutputWords :
    (dueCall 0x70000001#32).fetches 0x70000001#32 ∧ opField 0x70000001#32 = 7 ∧ (0x70000001#32).extractLsb' 0 28 ≠ 0 ∧
    (inCall []).ch[(7 : Fin 8)].isHeld = false ∧
    (((heldCall []).ch.set 0 (Reg.held 0x36EB0250182127AC#64)).set 4 (Reg.held 0x82603B7339060C86#64))[4] =
      Reg.held 0x82603B7339060C86#64 :=
  ⟨dueCall_fetches _, by decide, by decide, by decide, by decide⟩
theorem test_witness_FinalFormsOutputWords_example :
    allHeld (((heldCall []).ch.set 0 (Reg.held 0x36EB0250182127AC#64)).set 4 (Reg.held 0x82603B7339060C86#64)) := by
  unfold allHeld; decide
theorem test_witness_SerSerialisesDigest :
    (dueCall 0x80000001#32).fetches 0x80000001#32 ∧ opField 0x80000001#32 = 8 ∧ (0x80000001#32).extractLsb' 0 28 ≠ 0 ∧
    (inCall []).out[(3 : Fin 4)].isHeld = false ∧ ((heldCall []).out.set 0 (Reg.held 0xB48B392321272B2A#64))[0] =
      Reg.held 0xB48B392321272B2A#64 :=
  ⟨dueCall_fetches _, by decide, by decide, by decide, by decide⟩
theorem test_witness_SerSerialisesDigest_example :
    allHeld ((heldCall []).out.set 0 (Reg.held 0xB48B392321272B2A#64)) := by unfold allHeld; decide
theorem test_witness_HaltEndsCall :
    (dueCall 0x90000001#32).fetches 0x90000001#32 ∧ opField 0x90000001#32 = 9 ∧ (0x90000001#32).extractLsb' 0 28 ≠ 0 ∧
    (inCall []).host = [] ∧ (inCall []).dg[(31 : Fin 32)].isHeld = false ∧
    ({ inCall hashProg with upc := 49 } : State).fetches 0x90000000#32 :=
  ⟨dueCall_fetches _, by decide, by decide, rfl, by decide, rfl, rfl, rfl⟩
theorem test_witness_NoValueReadsRunOnFreeValues :
    (63 : Fin 64).val = amount63.val ∧ distinct4 0 1 2 3 = true ∧ ((inCall []).element (.v 0)).isHeld = false := by decide
theorem test_witness_LegalMicroOpsComplete :
    (Instr.rotr 0 0 1).wellFormed = true ∧ Instr.rotr 0 0 1 ≠ .halt ∧ Instr.halt.wellFormed = true ∧
    (∃ e ∈ reads (.rotr 0 0 1), (inCall []).holds e = false) := by decide
theorem test_witness_AccessMatrixWrites :
    (Instr.g 0 1 2 3 4 5).wellFormed = true ∧
    after (exec (.g 0 1 2 3 4 5) (heldCall [])) (fun t => t.v[15]) = some (Reg.held 16) := by decide
/-- From two calls of different `DIN` and parameters: nothing that `FINAL` reads is different. -/
theorem test_witness_AccessMatrixReads :
    (∀ e ∈ reads .final, (heldCall []).element e = ({ heldCall [0#32] with din := [1] } : State).element e) ∧
    after (exec .final (heldCall [])) (fun t => t.out[0]) =
      after (exec .final { heldCall [0#32] with din := [1] }) (fun t => t.out[0]) := by decide
/-- The premises of `INIT`, of `FOLD` with the switch false and two different `IV`, and of `FOLD` with it true. -/
theorem test_witness_AccessMatrixReads_parameters :
    (heldCall []).cfg.iv = (heldCall [0#32]).cfg.iv ∧ (heldCall []).cfg ≠ (heldCall [0#32]).cfg ∧
    (foldCall false ivt).cfg.foldUsesSeed = (foldCall false (Vector.replicate 4 0)).cfg.foldUsesSeed ∧
    (foldCall false ivt).cfg.iv ≠ (foldCall false (Vector.replicate 4 0)).cfg.iv ∧
    after (exec .fold (foldCall false ivt)) (fun t => t.ch[4]) =
      after (exec .fold (foldCall false (Vector.replicate 4 0))) (fun t => t.ch[4]) ∧
    (foldCall true ivt).cfg.foldUsesSeed = true := by decide
/-- Two calls that differ in free bits only, one of which steps. -/
theorem test_witness_FreeBitsStayOutOfTheSpecsState :
    (inCall hashProg).SameToSpec { inCall hashProg with v := tabulate fun _ => .free 7, epoch := 9 } ∧
    after (step (inCall hashProg)) (fun t => t.upc) = some 1 :=
  ⟨⟨rfl, rfl, rfl, rfl, rfl, rfl, rfl, rfl, rfl, rfl, rfl⟩, by decide⟩
theorem test_witness_IllFormedTermsTakeIllegalUop :
    (Instr.rotr 0 0 0).wellFormed = false ∧ (Instr.g 3 4 3 5 0 0).wellFormed = false := by decide
theorem test_witness_StartLatchesAndClears :
    (atReset hashProg [.start [], .reset]).host = .start [] :: [.reset] ∧ (atReset hashProg []).status = .idle ∧
    ({ inCall hashProg with status := .done } : State).status = .done := by decide
theorem test_witness_StartIgnoredInBusyAndError :
    ({ inCall hashProg with host := [.start [1]] } : State).host = .start [1] :: [] ∧ (inCall hashProg).status = .busy ∧
    (inCall hashProg).takeIllegalUop.status = .error := by decide
theorem test_witness_ResetFromAnyStatus :
    ({ (inCall []).takeIllegalUop with host := [.reset] } : State).host = .reset :: [] ∧
    ({ (inCall []).takeIllegalUop with host := [.reset] } : State).status = .error ∧
    after (step { (inCall []).takeIllegalUop with host := [.reset] }) State.status = some .idle := by decide
theorem test_witness_HostReads :
    (inCall []).status ≠ .done ∧
    (∀ k : Fin 32, ({ inCall [] with status := .done, dg := Vector.replicate 32 (Reg.held 7) } : State).dg[k] =
      Reg.held (Vector.replicate 32 (7 : Byte))[k]) ∧
    ({ inCall [] with status := .done, dg := Vector.replicate 32 (Reg.held 7) } : State).digest? =
      some (Vector.replicate 32 7) := by decide
theorem test_witness_RestingAndStuckStates :
    (atReset [] []).host = [] ∧ (atReset [] []).status = .idle ∧ (inCall []).takeIllegalUop.host = [] ∧
    (inCall []).takeIllegalUop.status = .error ∧ (atReset [] [.pass]).host = .pass :: [] := by decide
/-- `ERROR` with a pass due: one more move behind it, and none. -/
theorem test_witness_RestingAndStuckStates_error :
    ({ (inCall []).takeIllegalUop with host := [.pass, .reset] } : State).status = .error ∧
    step { (inCall []).takeIllegalUop with host := [.pass, .reset] } =
      .next { (inCall []).takeIllegalUop with host := [.reset] } ∧
    step { (inCall []).takeIllegalUop with host := [.pass] } = .fault .errorState := ⟨rfl, rfl, rfl⟩
theorem test_witness_StepKeepsParameters :
    after (step (inCall hashProg)) (fun t => t.cfg) = some (inCall hashProg).cfg := by decide
/-- Each of the three ways of `InputIsLatched`: a micro-op, an accepted `START`, a `RESET`. -/
theorem test_witness_InputIsLatched :
    after (step { inCall hashProg with din := [1] }) State.din = some [1] ∧
    after (step { atReset hashProg [.start [2]] with din := [1] }) State.din = some [2] ∧
    after (step { inCall hashProg with din := [1], host := [.reset] }) State.din = some [] := by decide
theorem test_witness_StatusTransitions :
    after (step (inCall [0x90000000#32])) State.status = some .done ∧ (inCall [0x90000000#32]).status = .busy := by decide
/-- The core's invariant holds in a call of the hardware, and that state takes a step. -/
theorem test_witness_StepKeepsCoreInvariant :
    (inCall hashProg).Inv ∧ after (step (inCall hashProg)) (fun t => t.upc) = some 1 :=
  ⟨⟨by decide, by decide, by decide, by decide, .inr (noneHeld_free _), .inr (noneHeld_free _),
    .inr (noneHeld_free _), .inr (noneHeld_free _)⟩, by decide⟩
/-- The hardware's invariant holds right after a `START`, and that state takes a step. -/
theorem test_witness_StepKeepsHashProgInvariant :
    (inCall hashProg).HashInv ∧ after (step (inCall hashProg)) (fun t => t.upc) = some 1 :=
  ⟨⟨rfl, by decide, rfl, by decide, by decide, fun _ h => absurd h (by decide), fun _ h => absurd h (by decide),
    fun _ h => absurd h (by decide), fun _ h => absurd h (by decide), fun _ h => absurd h (by decide)⟩, by decide⟩
/-- The other clause of `HashProgNeverFaultsOrRefuses`: a state of the invariant in `DONE`. -/
theorem test_witness_HashProgNeverFaultsOrRefuses_done :
    ({ heldCall hashProg with status := .done, upc := 49, dg := Vector.replicate 32 (Reg.held 0) } : State).HashInv :=
  ⟨rfl, by decide, rfl, by decide, by decide, fun _ _ => test_witness_mrot_allHeld,
    fun _ _ => by unfold allHeld; decide, fun _ _ => by unfold allHeld; decide, fun _ _ => by unfold allHeld; decide,
    fun _ _ => by unfold allHeld; decide⟩
theorem test_witness_HashProgComputesHash :
    (atReset hashProg [.start [0x61#8]]).cfg.uprog = hashProg ∧ (atReset hashProg [.start [0x61#8]]).status = .idle ∧
    (atReset hashProg [.start [0x61#8]]).host = [.start [0x61#8]] := by decide
theorem test_witness_CallsAreIndependent :
    ({ heldCall hashProg with status := .done, host := [.start []] } : State).cfg = (atReset hashProg [.start []]).cfg ∧
    (atReset hashProg [.start []]).cfg.uprog = hashProg := by decide
theorem test_witness_RunsOfTheSequencerEnd :
    (inCall hashProg).status = .busy ∧ (inCall hashProg).host = [] := by decide
theorem test_witness_RotateLaws :
    (⟨1, by decide, by decide⟩ : Amount).val + amount63.val = 64 ∧
    (amount63.val + amount63.val) % 64 = (⟨62, by decide, by decide⟩ : Amount).val := by decide
theorem test_witness_DisjointMixersCommute :
    distinct4 0 4 8 12 = true ∧ distinct4 1 5 9 13 = true ∧
    (∀ p ∈ [(0 : Fin 16), 4, 8, 12], ∀ q ∈ [(1 : Fin 16), 5, 9, 13], p ≠ q) := by decide
theorem test_witness_PackLaws :
    64 ≤ (List.replicate 64 (1 : Byte)).length ∧ ([] : List Byte).length < 64 ∧
    (List.replicate 63 (1 : Byte)).length + 1 ≤ 64 ∧ (List.replicate 64 (1 : Byte)).length = 64 := by decide

end Sys2Proof.Tests
end

/-! # Proofs: the arithmetic, the parameters and the core's invariant

A step of the machine is one of five things (a `START`, a `RESET`, a rest, an `IllegalUop`, the result of the micro-op
due), so a predicate kept by each of the five is kept by every step: `step_keeps`. The two statements about every step
follow from it. -/

namespace Sys2Proof.Machine

variable {s t : State}

/-! ### What the decoder accepts is well-formed (30_encoding.md R73, R74) -/

theorem decodeN_legal {w : UWord} {i j : Instr} (h : decodeN w i = .legal j) : j = i := by
  unfold decodeN at h
  split at h <;> cases h
  rfl

theorem decodeR_wellFormed {w : UWord} {i : Instr} (h : decodeR w = .legal i) : i.wellFormed = true := by
  unfold decodeR at h
  split at h
  · cases h
  · split at h
    · cases h
    · next hn => cases h; simpa [Instr.wellFormed] using hn

theorem decodeG_wellFormed {w : UWord} {i : Instr} (h : decodeG w = .legal i) : i.wellFormed = true := by
  unfold decodeG at h
  split at h
  · cases h
  · split at h
    · next hd => cases h; exact hd
    · cases h

/-- The decoder answers no term that no legal word spells. -/
theorem decode_wellFormed {w : UWord} {i : Instr} (h : decode w = .legal i) : i.wellFormed = true := by
  unfold decode at h
  split at h
  · exact decodeR_wellFormed h
  · exact decodeG_wellFormed h
  iterate 7 · cases decodeN_legal h; rfl
  · cases h

/-- A micro-op due was decoded from the ROM's word at `UPC`. -/
theorem State.due?_eq_some {i : Instr} (h : s.due? = some i) :
    ∃ w, s.cfg.uprog[s.upc.toNat]? = some w ∧ decode w = .legal i := by
  unfold State.due? at h
  split at h
  · cases h
  · next w hw =>
    split at h
    · next hd => cases h; exact ⟨w, hw, hd⟩
    · cases h

theorem State.due?_wellFormed {i : Instr} (h : s.due? = some i) : i.wellFormed = true := by
  obtain ⟨w, -, hd⟩ := State.due?_eq_some h
  exact decode_wellFormed hd

/-- Where a micro-op is due, `UPC` has not reached `NUOP`. -/
theorem State.upc_lt_of_due? {i : Instr} (h : s.due? = some i) : s.upc.toNat < s.cfg.uprog.length := by
  obtain ⟨w, hw, -⟩ := State.due?_eq_some h
  exact (List.getElem?_eq_some_iff.mp hw).1

/-! ### The five things a step can be -/

/-- A step of the sequencer that goes on takes `IllegalUop` or leaves the result of the micro-op due. -/
theorem sequencerStep_result (h : sequencerStep s = .next t) :
    (s.due? = none ∧ t = s.takeIllegalUop) ∨ ∃ i, s.due? = some i ∧ t = result i s := by
  obtain hill | ⟨i, hi, hx⟩ := sequencerStep_next h
  · exact .inl hill
  · exact .inr ⟨i, hi, exec_next (State.due?_wellFormed hi) hx⟩

/-- `START` is accepted or ignored (45_sequencer.md R152, R153). -/
theorem State.hostStart_cases (s : State) (data : List Byte) :
    s.hostStart data = { s.clearDatapath with din := data, ecause := .none, upc := 0, status := .busy } ∨
    s.hostStart data = s := by
  cases hst : s.status with
  | idle => exact .inl (s.hostStart_accepted data (.inl hst))
  | done => exact .inl (s.hostStart_accepted data (.inr hst))
  | busy => exact .inr (s.hostStart_ignored data (.inl hst))
  | error => exact .inr (s.hostStart_ignored data (.inr hst))

section StepKeeps

variable {P : State → Prop}
  (illegal : ∀ s : State, s.status = .busy → s.due? = none → P s → P s.takeIllegalUop)
  (due : ∀ (s : State) (i : Instr), s.status = .busy → s.due? = some i → P s → P (result i s))

include illegal due

theorem coreStep_keeps (hs : P s) (h : coreStep s = .next t) : P t := by
  obtain ⟨hb, hq⟩ | ⟨-, rfl⟩ := coreStep_next h
  · obtain ⟨hd, rfl⟩ | ⟨i, hi, rfl⟩ := sequencerStep_result hq
    · exact illegal s hb hd hs
    · exact due s i hb hi hs
  · exact hs

/-- What does not depend on the host's list (log 7) and is kept by the host's moves and by the sequencer's step is kept
by every step. -/
theorem step_keeps (host : ∀ (s : State) (rest : List HostMove), P s → P { s with host := rest })
    (start : ∀ (s : State) (data : List Byte), P s → P (s.hostStart data))
    (reset : ∀ s : State, P s → P s.hostReset)
    (hs : P s) (h : step s = .next t) : P t := by
  obtain ⟨data, rest, -, rfl⟩ | ⟨rest, -, rfl⟩ | ⟨rest, -, hc⟩ | ⟨-, hc⟩ := step_next h
  · exact start _ data (host s rest hs)
  · exact reset _ (host s rest hs)
  · exact coreStep_keeps illegal due (host s rest hs) hc
  · exact coreStep_keeps illegal due hs hc

end StepKeeps

/-! ### The parameters -/

@[simp] theorem State.hostStart_cfg (s : State) (data : List Byte) : (s.hostStart data).cfg = s.cfg := by
  obtain h | h := s.hostStart_cases data
  · rw [h]; rfl
  · rw [h]

/-- No micro-op writes a parameter (10_state.md R20, R26). -/
@[simp] theorem result_cfg (i : Instr) (s : State) : (result i s).cfg = s.cfg := by
  cases i with
  | rotr vd vs n => simp only [result]; split <;> rfl
  | g | mrot | pack | init | fold | final | ser | halt => rfl

/-- Settles O53: each of the five things a step can be leaves the parameters. -/
theorem stepKeepsParameters : Obligations.StepKeepsParameters := by
  intro s t h
  exact step_keeps (P := fun u => u.cfg = s.cfg)
    (illegal := fun _ _ _ hu => hu)
    (due := fun u i _ _ hu => (result_cfg i u).trans hu)
    (host := fun _ _ hu => hu)
    (start := fun u data hu => (u.hostStart_cfg data).trans hu)
    (reset := fun _ hu => hu) rfl h

/-! ### The core's invariant: one rule for each operation on the state -/

namespace State.Inv

theorem withHost (h : s.Inv) (rest : List HostMove) : ({ s with host := rest } : State).Inv := { h with }

/-- The invariant says nothing of `V`. -/
theorem withV (h : s.Inv) (v : Vector (Reg Word) 16) : ({ s with v := v } : State).Inv := { h with }

theorem loadM (h : s.Inv) (ok : Bool) (f : Fin 8 → Word) : (s.loadM ok f).Inv :=
  { h with m_whole := whole_tabulate ok f }

theorem loadCH (h : s.Inv) (ok : Bool) (f : Fin 8 → Word) : (s.loadCH ok f).Inv :=
  { h with ch_whole := whole_tabulate ok f }

theorem loadOUT (h : s.Inv) (ok : Bool) (f : Fin 4 → Word) : (s.loadOUT ok f).Inv :=
  { h with out_whole := whole_tabulate ok f }

theorem loadDG (h : s.Inv) (ok : Bool) (f : Fin 32 → Byte) : (s.loadDG ok f).Inv :=
  { h with dg_whole := whole_tabulate ok f }

/-- `UPC` advances to at most `NUOP` (10_state.md R28). -/
theorem advance (h : s.Inv) (hlt : s.upc.toNat < s.cfg.uprog.length) : s.advance.Inv :=
  { h with
    upc_le := by
      have hadd : (s.upc + 1).toNat ≤ s.upc.toNat + 1 := by
        rw [BitVec.toNat_add]; exact Nat.mod_le ..
      exact hadd.trans hlt }

theorem takeIllegalUop (h : s.Inv) : s.takeIllegalUop.Inv := { h with ecause_iff := by simp }

/-- `HALT`'s `DONE` comes from `BUSY`, where no cause is recorded (R31). -/
theorem setDone (h : s.Inv) (hb : s.status = .busy) : (s.setStatus .done).Inv :=
  { h with
    ecause_iff := by
      have hc : s.ecause ≠ .illegalUop := by simp [h.ecause_iff, hb]
      simp [hc] }

/-- Clearing the datapath empties the files, and `START` and `RESET` both clear the cause with it. -/
theorem cleared (h : s.Inv) {status : Status} (hs : status ≠ .error) (din : List Byte) :
    ({ s.clearDatapath with din := din, ecause := .none, upc := 0, status := status } : State).Inv where
  nuop_pos := h.nuop_pos
  nuop_le := h.nuop_le
  upc_le := Nat.zero_le _
  ecause_iff := by simp [hs]
  m_whole := .inr (noneHeld_free _)
  ch_whole := .inr (noneHeld_free _)
  out_whole := .inr (noneHeld_free _)
  dg_whole := .inr (noneHeld_free _)

theorem hostStart (h : s.Inv) (data : List Byte) : (s.hostStart data).Inv := by
  obtain hx | hx := s.hostStart_cases data <;> rw [hx]
  · exact h.cleared (by decide) data
  · exact h

theorem hostReset (h : s.Inv) : s.hostReset.Inv := h.cleared (by decide) []

/-- The micro-op due keeps the invariant: it writes `V`, or one other file whole (the access matrix of R36), and advances
`UPC`, or it ends the call. -/
theorem result_of_due {i : Instr} (h : s.Inv) (hb : s.status = .busy) (hi : s.due? = some i) : (result i s).Inv := by
  have hlt := State.upc_lt_of_due? hi
  cases i with
  | rotr vd vs n =>
    obtain ⟨k, hk, -⟩ := Amount.ofField_ne_zero (by simpa [Instr.wellFormed] using State.due?_wellFormed hi)
    simp only [result, hk]
    exact (h.withV _).advance hlt
  | g | init => exact (h.withV _).advance hlt
  | mrot | pack => exact (h.loadM _ _).advance hlt
  | fold => exact (h.loadCH _ _).advance hlt
  | final => exact (h.loadOUT _ _).advance hlt
  | ser => exact (h.loadDG _ _).advance hlt
  | halt => exact h.setDone hb

end State.Inv

/-- Settles O32: each of the five things a step can be keeps the invariant. -/
theorem stepKeepsCoreInvariant : Obligations.StepKeepsCoreInvariant := by
  intro s t hs h
  exact step_keeps
    (illegal := fun _ _ _ hu => hu.takeIllegalUop)
    (due := fun _ _ hb hi hu => hu.result_of_due hb hi)
    (host := fun _ rest hu => hu.withHost rest)
    (start := fun _ data hu => hu.hostStart data)
    (reset := fun _ hu => hu.hostReset) hs h

/-! ### Addition -/

/-- The carries out of bit 63 of two additions are dropped together (00_scope.md R10). -/
theorem add64_add64_toNat (x y z : Word) :
    (add64 (add64 x y) z).toNat = (x.toNat + y.toNat + z.toNat) % 2 ^ 64 := by
  rw [add64_toNat, add64_toNat, Nat.mod_add_mod]

/-- Settles O41, by the value of an addition and the laws of the library's `BitVec` addition. -/
theorem additionWraps : Obligations.AdditionWraps :=
  ⟨add64_toNat,
   fun x y z => ⟨add64_add64_toNat x y z, BitVec.add_assoc x y z, BitVec.add_comm x y⟩,
   by decide, by decide, fun x => BitVec.add_zero x⟩

end Sys2Proof.Machine

/-! # Proofs: what a micro-op reads and writes, and what a step can do to the state

The access matrix of 10_state.md R36 as two definitions, `writes` and `writtenWord`, tied to the model by
`result_element` (and `result_dg` for `DG`). From it: the frame and the reads of all nine micro-ops, and that no free bits
reach what the spec says of the machine, at any step and along any call. -/

namespace Sys2Proof.Machine

variable {s s' t t' : State} {i : Instr}

/-! ### The state after reset -/

/-- Settles O28: the files are cleared, the rest is the literal of `State.reset`. -/
theorem stateAfterReset : Obligations.StateAfterReset :=
  ⟨rfl, rfl, rfl, rfl, noneHeld_free _, noneHeld_free _, noneHeld_free _, noneHeld_free _, noneHeld_free _,
    rfl, rfl, rfl⟩

theorem hashProg_length : hashProg.length = 50 := rfl

/-- Settles O33: 50 words in the ROM, `UPC` 0, no cause, no file written. -/
theorem resetMeetsCoreInvariant : Obligations.ResetMeetsCoreInvariant where
  nuop_pos := by simp [hashProg_length]
  nuop_le := by simp [hashProg_length]
  upc_le := Nat.zero_le _
  ecause_iff := by simp
  m_whole := .inr (noneHeld_free _)
  ch_whole := .inr (noneHeld_free _)
  out_whole := .inr (noneHeld_free _)
  dg_whole := .inr (noneHeld_free _)

/-- Settles O35: in `IDLE` the invariant asks nothing of the files. -/
theorem resetMeetsHashProgInvariant : Obligations.ResetMeetsHashProgInvariant where
  rom := rfl
  noError := by simp
  noCause := rfl
  upc_lt := by simp
  done_at := by simp
  m_held h := absurd rfl h
  v_held h := absurd rfl h
  ch_held h := absurd rfl h
  out_held h := absurd rfl h
  dg_held h := absurd rfl h

/-! ### What a micro-op leaves of the fields outside the register files -/

/-- Of the fields outside the five register files a micro-op writes `UPC` and `STATUS` at most. -/
theorem result_eq_update (i : Instr) (s : State) :
    result i s = { s with
      v := (result i s).v, m := (result i s).m, ch := (result i s).ch, out := (result i s).out, dg := (result i s).dg
      upc := (result i s).upc, status := (result i s).status } := by
  cases i with
  | rotr vd vs n => simp only [result]; split <;> rfl
  | g | mrot | pack | init | fold | final | ser | halt => rfl

@[simp] theorem result_din (i : Instr) (s : State) : (result i s).din = s.din := by rw [result_eq_update]
@[simp] theorem result_ecause (i : Instr) (s : State) : (result i s).ecause = s.ecause := by rw [result_eq_update]
@[simp] theorem result_epoch (i : Instr) (s : State) : (result i s).epoch = s.epoch := by rw [result_eq_update]
@[simp] theorem result_host (i : Instr) (s : State) : (result i s).host = s.host := by rw [result_eq_update]

/-- Only `HALT` writes `STATUS` (10_state.md R30). -/
theorem result_status (hi : i ≠ .halt) : (result i s).status = s.status := by
  cases i with
  | rotr vd vs n => simp only [result]; split <;> rfl
  | g | mrot | pack | init | fold | final | ser => rfl
  | halt => exact absurd rfl hi

/-- Every legal micro-op but `HALT` advances `UPC` by one (10_state.md R28). -/
theorem result_upc (hw : i.wellFormed = true) (hi : i ≠ .halt) : (result i s).upc = s.upc + 1 := by
  cases i with
  | rotr vd vs n =>
    obtain ⟨k, hk, -⟩ := Amount.ofField_ne_zero (by simpa [Instr.wellFormed] using hw)
    simp only [result, hk]; rfl
  | g | mrot | pack | init | fold | final | ser => rfl
  | halt => exact absurd rfl hi

/-- Settles O20: a legal micro-op completes with its result, whatever its sources hold. -/
theorem legalMicroOpsComplete : Obligations.LegalMicroOpsComplete := by
  intro i s hw
  refine ⟨result i s, exec_legal hw, result_ecause i s, fun hi => ⟨result_upc hw hi, result_status hi⟩, ?_⟩
  rintro rfl
  exact ⟨rfl, rfl⟩

/-! ### The access matrix (10_state.md R36) -/

/-- The write columns of the access matrix: whether a micro-op writes an element of `V`, `M`, `CH` or `OUT`. -/
def writes : Instr → Elem → Bool
  | .rotr vd _ _, .v r => r == vd
  | .g a b c d _ _, .v r => r == a || r == b || r == c || r == d
  | .init, .v _ => true
  | .mrot, .m _ | .pack, .m _ => true
  | .fold, .ch _ => true
  | .final, .out _ => true
  | _, _ => false

/-- The word a micro-op writes to an element, where it writes it. -/
def writtenWord (s : State) : Instr → Elem → Word
  | .rotr _ vs n, .v _ => (Amount.ofField n).elim 0 (rotr64 (s.readV vs))
  | .g a b c d ix iy, .v r =>
    let q := Gf (s.readV a) (s.readV b) (s.readV c) (s.readV d) (s.readM ix) (s.readM iy)
    if r = d then q.2.2.2 else if r = c then q.2.2.1 else if r = b then q.2.1 else q.1
  | _, .v r => initWord s.cfg.iv s.readM r
  | .mrot, .m j => s.readM (j + 1)
  | _, .m j => packWord s.din j
  | _, .ch k => foldWord s.cfg s.readV k
  | _, .out k => finalWord s.readCH k

/-- `PACK` reads no element, so it always writes values (R32). -/
@[simp] theorem State.readable_pack (s : State) : s.readable .pack = true := rfl

theorem file_set_getElem {α : Type} {n : Nat} (xs : Vector α n) (k r : Fin n) (x : α) :
    (xs.set k x)[r] = if r = k then x else xs[r] := by
  simp only [Fin.getElem_fin, Vector.getElem_set, Fin.ext_iff, eq_comm]

/-- What every element of the four word files is after a legal micro-op. -/
theorem result_element (hw : i.wellFormed = true) (s : State) (e : Elem) :
    (result i s).element e =
      if writes i e then .written (s.readable i) (writtenWord s i e) else s.element e := by
  cases i with
  | rotr vd vs n =>
    obtain ⟨k, hk, -⟩ := Amount.ofField_ne_zero (n := n) (by simpa [Instr.wellFormed] using hw)
    cases e with
    | v r =>
      simp only [result, hk, State.element, State.advance_v, State.writeV_v, file_set_getElem, writes, beq_iff_eq,
        writtenWord, Option.elim_some]
    | m | ch | out => simp only [result, hk]; rfl
  | g a b c d ix iy =>
    rw [result_g ix iy hw]
    cases e with
    | v r =>
      simp only [State.element, file_set_getElem, writes, writtenWord, Bool.or_eq_true, beq_iff_eq]
      split_ifs <;> simp_all
    | m | ch | out => rfl
  | init | mrot | pack | fold | final | ser | halt =>
    cases e <;> simp [result, State.element, writes, writtenWord, -Fin.getElem_fin]

/-- `SER` writes all of `DG`, and no other micro-op any of it. -/
theorem result_dg (i : Instr) (s : State) :
    (result i s).dg =
      if i = .ser then tabulate fun k => .written (s.readable .ser) (digestByte s.readOUT k) else s.dg := by
  cases i with
  | rotr vd vs n => simp only [result]; split <;> rfl
  | g | mrot | pack | init | fold | final | ser | halt => rfl

theorem result_element_of_not_writes (hw : i.wellFormed = true) {e : Elem} (he : writes i e = false) :
    (result i s).element e = s.element e := by simp [result_element hw, he]


/-- Settles O21: an element the access matrix does not name is unchanged, and so is every field outside the files. -/
theorem accessMatrixWrites : Obligations.AccessMatrixWrites := by
  intro i s t hw h
  obtain rfl := exec_next hw h
  have unwritten {e : Elem} (he : writes i e = false) := result_element_of_not_writes (s := s) hw he
  refine ⟨result_din i s, result_cfg i s, result_epoch i s, result_host i s, result_ecause i s, result_status, ?_,
    fun hp hm => file_ext fun j => unwritten (e := .m j) ?_, fun hf => file_ext fun k => unwritten (e := .ch k) ?_,
    fun hf => file_ext fun k => unwritten (e := .out k) ?_, fun hs => by rw [result_dg, if_neg hs],
    fun r hr => unwritten (e := .v r) ?_⟩
  · rintro rfl; rfl
  · cases i <;> simp_all [writes]
  · cases i <;> simp_all [writes]
  · cases i <;> simp_all [writes]
  · cases i <;> simp_all [writes]

/-! ### Sources that hold no value (10_state.md R32, log 1) -/

/-- Settles O19: the effect of each micro-op is its result, which reads bits and marks what it writes. -/
theorem noValueReadsRunOnFreeValues : Obligations.NoValueReadsRunOnFreeValues := by
  refine ⟨fun s i => not_specRefuses_iff.symm, fun s e => ?_, fun s vd vs n k hk => ?_,
    fun s a b c d ix iy hd => (exec_legal (i := .g a b c d ix iy) hd).trans (congrArg _ (result_g ix iy hd)),
    fun s => ⟨result .mrot s, rfl, tabulate_getElem_fin _, rfl⟩,
    fun s => ⟨result .init s, rfl, tabulate_getElem_fin _, rfl⟩,
    fun s => ⟨result .fold s, rfl, tabulate_getElem_fin _, rfl⟩,
    fun s => ⟨result .final s, rfl, tabulate_getElem_fin _, rfl⟩,
    fun s => ⟨result .ser s, rfl, tabulate_getElem_fin _, rfl⟩⟩
  · cases e <;> rfl
  · simp only [exec, execRotr, Amount.ofField_some hk]; rfl

/-! ### The read columns of the access matrix (10_state.md R36) -/

/-- Two states in which a micro-op has the same inputs: the elements, the input bytes and the parameters it reads. -/
structure SameInputs (i : Instr) (s s' : State) : Prop where
  elements : ∀ e ∈ reads i, s.element e = s'.element e
  din : i = .pack → s.din = s'.din
  iv : i = .init → s.cfg.iv = s'.cfg.iv
  fold : i = .fold → s.cfg.foldUsesSeed = s'.cfg.foldUsesSeed ∧
    (s.cfg.foldUsesSeed = true → s.cfg.iv = s'.cfg.iv)

namespace SameInputs

/-- The bits of a file that is read whole are the same in both. -/
theorem bits_eq {n : Nat} {elem : Fin n → Elem} (h : SameInputs i s s') (hr : reads i = (List.finRange n).map elem)
    (k : Fin n) : (s.element (elem k)).bits = (s'.element (elem k)).bits := by
  rw [h.elements (elem k) (hr ▸ List.mem_map_of_mem (List.mem_finRange k))]

theorem readV (h : SameInputs .fold s s') : s.readV = s'.readV := funext (h.bits_eq (elem := .v) rfl)
theorem readM (h : SameInputs i s s') (hr : reads i = (List.finRange 8).map .m) : s.readM = s'.readM :=
  funext (h.bits_eq hr)
theorem readCH (h : SameInputs .final s s') : s.readCH = s'.readCH := funext (h.bits_eq (elem := .ch) rfl)
theorem readOUT (h : SameInputs .ser s s') : s.readOUT = s'.readOUT := funext (h.bits_eq (elem := .out) rfl)

theorem readable_eq (h : SameInputs i s s') : s.readable i = s'.readable i := by
  rw [Bool.eq_iff_iff, State.readable_iff, State.readable_iff]
  refine forall₂_congr fun e he => ?_
  rw [State.holds_eq, State.holds_eq, h.elements e he]

/-- The switch selects whether the fold reads `IV` (43_codec_compressor.md R130, log 6). -/
theorem foldWord_eq (h : SameInputs .fold s s') : foldWord s.cfg s.readV = foldWord s'.cfg s'.readV := by
  obtain ⟨hsw, hiv⟩ := h.fold rfl
  funext k
  rw [h.readV]
  unfold foldWord
  rw [← hsw]
  cases hb : s.cfg.foldUsesSeed with
  | false => rfl
  | true => simp only [hiv hb]

/-- The words a micro-op writes depend on its inputs only. -/
theorem writtenWord_eq (h : SameInputs i s s') {e : Elem} (he : writes i e = true) :
    writtenWord s i e = writtenWord s' i e := by
  cases i with
  | rotr vd vs n =>
    have hv : s.readV vs = s'.readV vs := State.readV_agree _ _ (h.elements (.v vs) (by simp [reads]))
    cases e with
    | v r => simp only [writtenWord, hv]
    | m | ch | out => cases he
  | g a b c d ix iy =>
    have hv (r) (hr : .v r ∈ reads (.g a b c d ix iy)) : s.readV r = s'.readV r :=
      State.readV_agree _ _ (h.elements (.v r) hr)
    have hm (j) (hj : .m j ∈ reads (.g a b c d ix iy)) : s.readM j = s'.readM j :=
      State.readM_agree _ _ (h.elements (.m j) hj)
    cases e with
    | v r =>
      simp only [writtenWord, hv a (by simp [reads]), hv b (by simp [reads]), hv c (by simp [reads]),
        hv d (by simp [reads]), hm ix (by simp [reads]), hm iy (by simp [reads])]
    | m | ch | out => cases he
  | init =>
    cases e with
    | v r => simp only [writtenWord, h.iv rfl, h.readM rfl]
    | m | ch | out => cases he
  | mrot =>
    cases e with
    | m j => simp only [writtenWord, h.readM rfl]
    | v | ch | out => cases he
  | pack =>
    cases e with
    | m j => simp only [writtenWord, h.din rfl]
    | v | ch | out => cases he
  | fold =>
    cases e with
    | ch k => simp only [writtenWord, h.foldWord_eq]
    | v | m | out => cases he
  | final =>
    cases e with
    | out k => simp only [writtenWord, h.readCH]
    | v | m | ch => cases he
  | ser | halt => cases e <;> cases he

end SameInputs

/-- Settles O22: what is written depends on the micro-op's inputs, and the rest is unchanged. -/
theorem accessMatrixReads : Obligations.AccessMatrixReads := by
  intro i s s' t t' hw hel hdin hiv hfold h h'
  have hin : SameInputs i s s' := ⟨hel, hdin, hiv, hfold⟩
  obtain rfl := exec_next hw h
  obtain rfl := exec_next hw h'
  refine ⟨fun e => ?_, ?_⟩
  · cases he : writes i e with
    | false => exact .inr ⟨result_element_of_not_writes hw he, result_element_of_not_writes hw he⟩
    | true => exact .inl (by simp only [result_element hw, he, if_true, hin.readable_eq, hin.writtenWord_eq he])
  · by_cases hs : i = .ser
    · subst hs
      exact .inl (by simp only [result_dg, if_true, hin.readable_eq, hin.readOUT])
    · exact .inr ⟨by rw [result_dg, if_neg hs], by rw [result_dg, if_neg hs]⟩

/-! ### What the spec says of a state is all that a step's outcome depends on (10_state.md R32 to R34) -/

theorem fileValues_eq_iff {α : Type} {n : Nat} {xs ys : Vector (Reg α) n} :
    fileValues xs = fileValues ys ↔ ∀ k : Fin n, xs[k].value? = ys[k].value? := by
  constructor
  · intro h k
    simpa only [fileValues, tabulate_getElem_fin] using congrArg (·[k]) h
  · intro h
    simp only [fileValues, h]

theorem Reg.isHeld_eq_of_value? {α : Type} {x y : Reg α} (h : x.value? = y.value?) : x.isHeld = y.isHeld := by
  cases x <;> cases y <;> simp_all [Reg.value?]

theorem Reg.eq_of_value? {α : Type} {x y : Reg α} (h : x.value? = y.value?) (hx : x.isHeld = true) : x = y := by
  cases x <;> cases y <;> simp_all [Reg.value?]

/-- Of what is written without a value in every source the spec says nothing, so the words need not agree. -/
theorem Reg.written_value?_eq {α : Type} {ok : Bool} {x y : α} (h : ok = true → x = y) :
    (Reg.written ok x).value? = (Reg.written ok y).value? := by
  cases ok with
  | false => rfl
  | true => rw [h rfl]

/-- The two kinds of `STATUS` a `START` tells apart (45_sequencer.md R152, R153). -/
theorem Status.startable_or_not (x : Status) : (x = .idle ∨ x = .done) ∨ (x = .busy ∨ x = .error) := by
  cases x <;> simp

namespace State.SameToSpec

theorem element (h : s.SameToSpec s') (e : Elem) : (s.element e).value? = (s'.element e).value? := by
  cases e with
  | v k => exact fileValues_eq_iff.mp h.v k
  | m k => exact fileValues_eq_iff.mp h.m k
  | ch k => exact fileValues_eq_iff.mp h.ch k
  | out k => exact fileValues_eq_iff.mp h.out k

theorem readable_eq (h : s.SameToSpec s') (i : Instr) : s.readable i = s'.readable i := by
  unfold State.readable
  congr 1
  funext e
  rw [State.holds_eq, State.holds_eq, Reg.isHeld_eq_of_value? (h.element e)]

/-- A micro-op whose sources all hold a value has the same inputs in both states. -/
theorem sameInputs (h : s.SameToSpec s') (hr : s.readable i = true) : SameInputs i s s' where
  elements e he := Reg.eq_of_value? (h.element e) (by rw [← State.holds_eq]; exact s.readable_iff.mp hr e he)
  din _ := h.din
  iv _ := by rw [h.cfg]
  fold _ := by simp [h.cfg]

theorem due?_eq (h : s.SameToSpec s') : s.due? = s'.due? := State.due?_congr h.cfg h.upc

theorem withHost (h : s.SameToSpec s') (rest : List HostMove) :
    ({ s with host := rest } : State).SameToSpec { s' with host := rest } := { h with host := rfl }

theorem takeIllegalUop (h : s.SameToSpec s') : s.takeIllegalUop.SameToSpec s'.takeIllegalUop :=
  { h with status := rfl, ecause := rfl }

theorem result_element (h : s.SameToSpec s') (hw : i.wellFormed = true) (e : Elem) :
    ((result i s).element e).value? = ((result i s').element e).value? := by
  rw [Machine.result_element hw, Machine.result_element hw]
  cases he : writes i e with
  | false => exact h.element e
  | true =>
    simp only [if_true, ← h.readable_eq]
    exact Reg.written_value?_eq fun hr => (h.sameInputs hr).writtenWord_eq he

theorem result_dg (h : s.SameToSpec s') (i : Instr) : fileValues (result i s).dg = fileValues (result i s').dg := by
  rw [Machine.result_dg, Machine.result_dg]
  split
  · refine fileValues_eq_iff.mpr fun k => ?_
    simp only [tabulate_getElem_fin, ← h.readable_eq]
    exact Reg.written_value?_eq fun hr => by rw [(h.sameInputs hr).readOUT]
  · exact h.dg

/-- A legal micro-op leaves states of which the spec says the same. -/
theorem result (h : s.SameToSpec s') (hw : i.wellFormed = true) :
    (Machine.result i s).SameToSpec (Machine.result i s') where
  v := fileValues_eq_iff.mpr fun k => h.result_element hw (.v k)
  m := fileValues_eq_iff.mpr fun k => h.result_element hw (.m k)
  ch := fileValues_eq_iff.mpr fun k => h.result_element hw (.ch k)
  out := fileValues_eq_iff.mpr fun k => h.result_element hw (.out k)
  dg := h.result_dg i
  din := by simp [h.din]
  upc := by
    by_cases hi : i = .halt
    · subst hi; exact h.upc
    · rw [result_upc hw hi, result_upc hw hi, h.upc]
  status := by
    by_cases hi : i = .halt
    · subst hi; rfl
    · rw [result_status hi, result_status hi, h.status]
  ecause := by simp [h.ecause]
  cfg := by simp [h.cfg]
  host := by simp [h.host]

/-- After `START` or `RESET` the spec says the same of any two states with the same parameters (R33). -/
theorem cleared (hc : s.cfg = s'.cfg) (hh : s.host = s'.host) (din : List Byte) (status : Status) :
    ({ s.clearDatapath with din := din, ecause := .none, upc := 0, status := status } : State).SameToSpec
      { s'.clearDatapath with din := din, ecause := .none, upc := 0, status := status } where
  v := fileValues_eq_iff.mpr fun k => by simp [Reg.value?]
  m := fileValues_eq_iff.mpr fun k => by simp [Reg.value?]
  ch := fileValues_eq_iff.mpr fun k => by simp [Reg.value?]
  out := fileValues_eq_iff.mpr fun k => by simp [Reg.value?]
  dg := fileValues_eq_iff.mpr fun k => by simp [Reg.value?]
  din := rfl
  upc := rfl
  status := rfl
  ecause := rfl
  cfg := hc
  host := hh

/-- An accepted `START` leads any two states with the same parameters to the same state of the spec (R33, R152). -/
theorem hostStart_of_accepted (hc : s.cfg = s'.cfg) (hh : s.host = s'.host) (hs : s.status = .idle ∨ s.status = .done)
    (hs' : s'.status = .idle ∨ s'.status = .done) (data : List Byte) :
    (s.hostStart data).SameToSpec (s'.hostStart data) := by
  rw [s.hostStart_accepted data hs, s'.hostStart_accepted data hs']
  exact cleared hc hh data .busy

theorem hostStart (h : s.SameToSpec s') (data : List Byte) : (s.hostStart data).SameToSpec (s'.hostStart data) := by
  obtain hs | hb := s.status.startable_or_not
  · exact hostStart_of_accepted h.cfg h.host hs (h.status ▸ hs) data
  · rw [s.hostStart_ignored data hb, s'.hostStart_ignored data (h.status ▸ hb)]
    exact h

theorem hostReset (h : s.SameToSpec s') : s.hostReset.SameToSpec s'.hostReset := cleared h.cfg h.host [] .idle

end State.SameToSpec

theorem coreStep_busy (h : s.status = .busy) : coreStep s = sequencerStep s := by simp only [coreStep, h]

theorem coreStep_not_busy (h : s.status ≠ .busy) : coreStep s = s.restStep := by
  unfold coreStep
  split
  · contradiction
  all_goals rfl

/-- Whether a state rests or is stuck is told by `STATUS` and the host's list (log 8, log 9). -/
theorem State.restStep_next_of_same (hs : s.status = s'.status) (hh : s.host = s'.host) (h : s.restStep = .next t) :
    s'.restStep = .next s' := by
  unfold State.restStep at h ⊢
  rw [hs, hh] at h
  split at h
  · cases h
  · rfl


/-- A step of the core that goes on does so from every state of which the spec says the same. -/
theorem coreStep_of_same (h : s.SameToSpec s') (hx : coreStep s = .next t) :
    ∃ t', coreStep s' = .next t' ∧ t.SameToSpec t' := by
  by_cases hb : s.status = .busy
  · rw [coreStep_busy hb] at hx
    rw [coreStep_busy (h.status ▸ hb)]
    obtain ⟨hd, rfl⟩ | ⟨i, hi, rfl⟩ := sequencerStep_result hx
    · exact ⟨_, sequencerStep_illegal (h.due?_eq ▸ hd), h.takeIllegalUop⟩
    · have hw := State.due?_wellFormed hi
      exact ⟨_, (sequencerStep_due (h.due?_eq ▸ hi)).trans (exec_legal hw), h.result hw⟩
  · rw [coreStep_not_busy hb] at hx
    rw [coreStep_not_busy (h.status ▸ hb)]
    obtain rfl := State.restStep_next _ _ hx
    exact ⟨s', State.restStep_next_of_same h.status h.host hx, h⟩

/-! The step by the head of the host's list. -/

theorem step_of_start {data : List Byte} {rest : List HostMove} (h : s.host = .start data :: rest) :
    step s = .next (State.hostStart { s with host := rest } data) := by simp only [step, boundaryStep, h]

theorem step_of_reset {rest : List HostMove} (h : s.host = .reset :: rest) :
    step s = .next (State.hostReset { s with host := rest }) := by simp only [step, boundaryStep, h]

theorem step_of_pass {rest : List HostMove} (h : s.host = .pass :: rest) :
    step s = coreStep { s with host := rest } := by simp only [step, boundaryStep, h]

theorem step_of_quiet (h : s.host = []) : step s = coreStep s := by simp only [step, boundaryStep, h]

/-- Settles O23: the host's move and the micro-op due are the same in both states, and each of the five things a step can
be keeps what the spec says of them the same. -/
theorem freeBitsStayOutOfTheSpecsState : Obligations.FreeBitsStayOutOfTheSpecsState := by
  intro s s' t hsame hx
  obtain ⟨data, rest, hh, rfl⟩ | ⟨rest, hh, rfl⟩ | ⟨rest, hh, hc⟩ | ⟨hh, hc⟩ := step_next hx
  · exact ⟨_, step_of_start (hsame.host ▸ hh), (hsame.withHost rest).hostStart data⟩
  · exact ⟨_, step_of_reset (hsame.host ▸ hh), (hsame.withHost rest).hostReset⟩
  · rw [step_of_pass (hsame.host ▸ hh)]
    exact coreStep_of_same (hsame.withHost rest) hc
  · rw [step_of_quiet (hsame.host ▸ hh)]
    exact coreStep_of_same hsame hc

/-! ### The transitions of `STATUS` (R30) and the latch of the input (R27) -/

/-- A step of the core rests, takes `IllegalUop`, or leaves the result of the micro-op due. -/
theorem coreStep_cases (h : coreStep s = .next t) :
    t = s ∨ (s.status = .busy ∧ s.due? = none ∧ t = s.takeIllegalUop) ∨
      (s.status = .busy ∧ ∃ i, s.due? = some i ∧ t = result i s) := by
  obtain ⟨hb, hq⟩ | ⟨-, rfl⟩ := coreStep_next h
  · obtain ⟨hd, rfl⟩ | ⟨i, hi, rfl⟩ := sequencerStep_result hq
    · exact .inr (.inl ⟨hb, hd, rfl⟩)
    · exact .inr (.inr ⟨hb, i, hi, rfl⟩)
  · exact .inl rfl

/-- The five things a step that goes on can be: an accepted `START`, a `RESET`, a rest (an ignored `START` is one), an
`IllegalUop`, the result of the micro-op due; the move that was due is off the host's list (log 7). -/
theorem step_cases (h : step s = .next t) :
    (∃ data rest, s.host = .start data :: rest ∧ (s.status = .idle ∨ s.status = .done) ∧
      t = { State.clearDatapath { s with host := rest } with din := data, ecause := .none, upc := 0, status := .busy }) ∨
    (∃ rest, s.host = .reset :: rest ∧ t = State.hostReset { s with host := rest }) ∨
    (∃ rest, t = { s with host := rest }) ∨
    (s.status = .busy ∧ s.due? = none ∧ ∃ rest, t = State.takeIllegalUop { s with host := rest }) ∨
    (s.status = .busy ∧ ∃ i rest, s.due? = some i ∧ t = result i { s with host := rest }) := by
  have core (rest : List HostMove) (hc : coreStep { s with host := rest } = .next t) :
      (∃ rest, t = { s with host := rest }) ∨
      (s.status = .busy ∧ s.due? = none ∧ ∃ rest, t = State.takeIllegalUop { s with host := rest }) ∨
      (s.status = .busy ∧ ∃ i rest, s.due? = some i ∧ t = result i { s with host := rest }) := by
    have hd : State.due? { s with host := rest } = s.due? := State.due?_congr rfl rfl
    obtain rfl | ⟨hb, hn, rfl⟩ | ⟨hb, i, hi, rfl⟩ := coreStep_cases hc
    · exact .inl ⟨rest, rfl⟩
    · exact .inr (.inl ⟨hb, hd ▸ hn, rest, rfl⟩)
    · exact .inr (.inr ⟨hb, i, rest, hd ▸ hi, rfl⟩)
  obtain ⟨data, rest, hh, rfl⟩ | hr | ⟨rest, -, hc⟩ | ⟨hh, hc⟩ := step_next h
  · obtain hs | hb := s.status.startable_or_not
    · exact .inl ⟨data, rest, hh, hs, State.hostStart_accepted _ data hs⟩
    · exact .inr (.inr (.inl ⟨rest, State.hostStart_ignored _ data hb⟩))
  · exact .inr (.inl hr)
  · exact .inr (.inr (core rest hc))
  · exact .inr (.inr (core [] (by rwa [← hh])))

/-- Settles O31: of the things a step can be, a rest and every micro-op but `HALT` leave `STATUS`. -/
theorem statusTransitions : Obligations.StatusTransitions := by
  intro s t h hne
  obtain ⟨data, rest, hh, hs, rfl⟩ | ⟨rest, hh, rfl⟩ | ⟨rest, rfl⟩ | ⟨hb, hd, rest, rfl⟩ | ⟨hb, i, rest, hi, rfl⟩ :=
    step_cases h
  · exact .inr (.inl ⟨⟨data, rest, hh⟩, hs, rfl⟩)
  · exact .inl ⟨⟨rest, hh⟩, rfl⟩
  · exact absurd rfl hne
  · exact .inr (.inr (.inr ⟨hb, hd, rfl⟩))
  · by_cases hhalt : i = .halt
    · subst hhalt
      exact .inr (.inr (.inl ⟨hb, hi, rfl⟩))
    · exact absurd (result_status hhalt) hne

/-- Settles O54: neither a rest nor a micro-op nor the exception writes `DIN`. -/
theorem inputIsLatched : Obligations.InputIsLatched := by
  intro s t h
  obtain ⟨data, rest, hh, hs, rfl⟩ | ⟨rest, hh, rfl⟩ | ⟨rest, rfl⟩ | ⟨-, -, rest, rfl⟩ | ⟨-, i, rest, -, rfl⟩ :=
    step_cases h
  · exact .inr (.inl ⟨data, rest, hh, hs, rfl⟩)
  · exact .inr (.inr ⟨rest, hh, rfl⟩)
  · exact .inl rfl
  · exact .inl rfl
  · exact .inl (result_din i _)

/-! ### Calls of `HASH_PROG` (45_sequencer.md R158, R159) -/

/-- The 50 words of `HASH_PROG` are legal; the last one is `HALT`. -/
theorem decode_hashProg : ∀ k : Fin 50, decode hashProg[k] = .legal hashOps[k] := by decide

/-- A call of `HASH_PROG` that is in progress or has halted, with a host that does nothing more. -/
structure State.InHashCall (s : State) : Prop where
  rom : s.cfg.uprog = hashProg
  quiet : s.host = []
  running : s.status = .done ∨ (s.status = .busy ∧ s.upc.toNat < 50)

theorem State.InHashCall.due? (h : s.InHashCall) (hu : s.upc.toNat < 50) :
    s.due? = some (hashOps[s.upc.toNat]'hu) := by
  refine State.due?_of_word (w := hashProg[s.upc.toNat]'hu) ?_ (decode_hashProg ⟨_, hu⟩)
  rw [h.rom]
  exact List.getElem?_eq_getElem hu

/-- Such a call goes on: the micro-op due is legal, and `UPC` stays below 50 because the one at index 49 is `HALT`. -/
theorem State.InHashCall.step (h : s.InHashCall) : ∃ t, step s = .next t ∧ t.InHashCall := by
  obtain hd | ⟨hb, hu⟩ := h.running
  · refine ⟨s, ?_, h⟩
    simp only [step_of_quiet h.quiet, coreStep, State.restStep, hd]
  · have hdue := h.due? hu
    generalize hi : hashOps[s.upc.toNat]'hu = i at hdue
    have hw := State.due?_wellFormed hdue
    refine ⟨result i s, ?_, by simp [h.rom], by simp [h.quiet], ?_⟩
    · rw [step_of_quiet h.quiet, coreStep_busy hb, sequencerStep_due hdue, exec_legal hw]
    · by_cases hhalt : i = .halt
      · subst hhalt; exact .inl rfl
      · have hlast : s.upc.toNat ≠ 49 := by
          intro h49
          exact hhalt (by simp only [← hi, h49]; rfl)
        refine .inr ⟨(result_status hhalt).trans hb, ?_⟩
        rw [result_upc hw hhalt]
        bv_omega

/-- Along a call of `HASH_PROG` the spec says the same of both runs, step for step. -/
theorem run_sameToSpec (k : Nat) (h : s.InHashCall) (hsame : s.SameToSpec s') :
    ∃ t t', run k s = .next t ∧ run k s' = .next t' ∧ t.SameToSpec t' := by
  induction k generalizing s s' with
  | zero => exact ⟨s, s', rfl, rfl, hsame⟩
  | succ k ih =>
    obtain ⟨u, hu, hcall⟩ := h.step
    obtain ⟨u', hu', hsame'⟩ := freeBitsStayOutOfTheSpecsState s s' u hsame hu
    rw [run_succ k hu, run_succ k hu']
    exact ih hcall hsame'

/-- An accepted `START` begins a call. -/
theorem State.InHashCall.of_hostStart (hrom : s.cfg.uprog = hashProg) (hh : s.host = [])
    (hs : s.status = .idle ∨ s.status = .done) (data : List Byte) : (s.hostStart data).InHashCall := by
  rw [s.hostStart_accepted data hs]
  exact ⟨hrom, hh, .inr ⟨rfl, Nat.zero_lt_succ 49⟩⟩

/-- Settles O39: the accepted `START` makes the two states the same to the spec, and every later step keeps them so. -/
theorem callsAreIndependent : Obligations.CallsAreIndependent := by
  intro s s' data hrom hcfg hs hs' hh hh' k _
  rw [run_succ k (step_of_start hh), run_succ k (step_of_start hh')]
  exact run_sameToSpec k (.of_hostStart (s := { s with host := [] }) hrom rfl hs data)
    (State.SameToSpec.hostStart_of_accepted (s := { s with host := [] }) (s' := { s' with host := [] })
      hcfg.symm rfl hs hs' data)

end Sys2Proof.Machine

/-! # Proofs: the byte order of a word and the host's reads (20_memory.md sections 2 and 7)

The two byte/word conversions by the numbers they stand for, `le64_toNat` and `byteOf_toNat`: that each undoes the other is
then arithmetic on the digits of a number to base 256. -/

namespace Sys2Proof.Machine

variable {s : State}

/-! ### `le64` and the bytes of a word (R54) -/

/-- A byte fits into its place of the word. -/
theorem byteAt_toNat (b : Byte) (k : Fin 8) : (byteAt b k).toNat = b.toNat * 2 ^ (8 * k.val) := by
  have hfits : b.toNat * 2 ^ (8 * k.val) < 2 ^ 64 :=
    calc b.toNat * 2 ^ (8 * k.val)
      _ < 2 ^ 8 * 2 ^ (8 * k.val) := Nat.mul_lt_mul_of_pos_right b.isLt (by positivity)
      _ = 2 ^ (8 + 8 * k.val) := (pow_add ..).symm
      _ ≤ 2 ^ 64 := Nat.pow_le_pow_right (by decide) (by omega)
  rw [byteAt, BitVec.toNat_shiftLeft, BitVec.toNat_setWidth_of_le (by decide), Nat.shiftLeft_eq,
    Nat.mod_eq_of_lt hfits]

/-- Eight digits to base 256, with the weights as numerals. -/
theorem sum_bytes (f : Fin 8 → Nat) :
    ∑ k : Fin 8, f k * 2 ^ (8 * k.val) =
      f 0 + f 1 * 2 ^ 8 + f 2 * 2 ^ 16 + f 3 * 2 ^ 24 + f 4 * 2 ^ 32 + f 5 * 2 ^ 40 + f 6 * 2 ^ 48 + f 7 * 2 ^ 56 := by
  simp [Fin.sum_univ_eight]

/-- The eight bytes fill the word and no more, so no carry is lost. -/
theorem le64_toNat (b : Fin 8 → Byte) : (le64 b).toNat = ∑ k : Fin 8, (b k).toNat * 2 ^ (8 * k.val) := by
  have hsum : le64 b = ∑ k : Fin 8, byteAt (b k) k := by rw [Fin.sum_univ_eight]; rfl
  have hlt : ∑ k : Fin 8, (b k).toNat * 2 ^ (8 * k.val) < 2 ^ 64 := by rw [sum_bytes]; omega
  rw [← Nat.mod_eq_of_lt hlt]
  simp only [hsum, Fin.sum_univ_eight, BitVec.toNat_add, byteAt_toNat, Nat.mod_add_mod]

theorem byteOf_toNat (w : Word) (k : Nat) : (byteOf w k).toNat = w.toNat / 2 ^ (8 * k) % 256 := by
  rw [byteOf, BitVec.toNat_setWidth, BitVec.toNat_ushiftRight, Nat.shiftRight_eq_div_pow]

/-- Digit `k` to base 256 of the number `le64` stands for. -/
theorem byteOf_le64 (b : Fin 8 → Byte) (k : Fin 8) : byteOf (le64 b) k = b k := by
  apply BitVec.eq_of_toNat_eq
  rw [byteOf_toNat, le64_toNat, sum_bytes]
  fin_cases k <;> simp <;> omega

/-- The lowest `n` digits to base 256 make up the number modulo `256 ^ n`. -/
theorem sum_bytes_of_digits (x n : Nat) :
    ∑ k : Fin n, x / 2 ^ (8 * k.val) % 256 * 2 ^ (8 * k.val) = x % 2 ^ (8 * n) := by
  induction n with
  | zero => simp [Nat.mod_one]
  | succ n ih =>
    have hpow : 2 ^ (8 * (n + 1)) = 2 ^ (8 * n) * 256 := pow_add 2 (8 * n) 8
    rw [Fin.sum_univ_castSucc, hpow, Nat.mod_mul, mul_comm (2 ^ (8 * n))]
    exact congrArg (· + _) ih

theorem le64_byteOf (w : Word) : le64 (fun k => byteOf w k) = w := by
  apply BitVec.eq_of_toNat_eq
  simp only [le64_toNat, byteOf_toNat, sum_bytes_of_digits]
  exact Nat.mod_eq_of_lt w.isLt

/-- Settles O44, by the digits of the two numbers. -/
theorem littleEndianBothWays : Obligations.LittleEndianBothWays :=
  ⟨le64_toNat, fun w k => byteOf_toNat w k, byteOf_le64, le64_byteOf, by decide⟩

/-! ### The host's reads (R61) -/

/-- The host is given the digest exactly in `DONE` with every byte holding a value, and then as it stands. -/
theorem State.hostReadDG_eq_some_iff (d : Vector Byte 32) :
    s.hostReadDG = some d ↔ s.status = .done ∧ ∀ k : Fin 32, s.dg[k] = .held d[k] := by
  rw [State.hostReadDG_some, State.digest?_some]

/-- The encodings of 10_state.md R30 and R31 are read back without loss. -/
theorem Status.code_injective : Function.Injective Status.code := by
  intro x y
  cases x <;> cases y <;> decide

theorem Ecause.code_injective : Function.Injective Ecause.code := by
  intro x y
  cases x <;> cases y <;> decide

/-- Settles O29, by what a read of `DG` can give and the injective encodings. -/
theorem hostReads : Obligations.HostReads := by
  refine ⟨fun s hs => ?_, fun s d hs hd => (State.hostReadDG_eq_some_iff d).mpr ⟨hs, hd⟩,
    fun s d h => (State.hostReadDG_eq_some_iff d).mp h, fun s => ⟨rfl, ?_⟩⟩
  · exact Option.eq_none_iff_forall_ne_some.mpr fun d hd => hs ((State.hostReadDG_eq_some_iff d).mp hd).1
  · have status (x : Status) : s.hostReadSTATUS = x.code ↔ s.status = x := Status.code_injective.eq_iff
    have ecause (x : Ecause) : s.hostReadECAUSE = x.code ↔ s.ecause = x := Ecause.code_injective.eq_iff
    exact ⟨status .idle, status .busy, status .done, status .error, ecause .none, ecause .illegalUop⟩

end Sys2Proof.Machine

/-! # Proofs: the encoding (30_encoding.md)

A micro-op and its word are tied by what the fields of the word hold, `Spells`: the word is `encode i` exactly when its
fields spell `i` (`eq_encode_iff`, arithmetic on the word's number), and the decoder answers a legal `i` exactly when they
spell it (`spells_of_decode`, `decode_of_spells`, the decoder's branches). The round trip of R73 is the two read together. -/

namespace Sys2Proof.Machine

variable {s : State} {w : UWord} {i : Instr}

/-! ### The fields of a word, and the micro-op they spell (R70, R71) -/

/-- Format N with operation `op`: all other bits are zero. -/
def SpellsN (w : UWord) (op : BitVec 4) : Prop := opField w = op ∧ w.extractLsb' 0 28 = 0

/-- The fields of `w` are those of the micro-op, its must-be-zero bits are zero. -/
def Spells (w : UWord) : Instr → Prop
  | .rotr vd vs n =>
      opField w = 1 ∧ vField w 24 = vd ∧ vField w 20 = vs ∧ w.extractLsb' 6 14 = 0 ∧ nField w = n
  | .g a b c d ix iy =>
      opField w = 2 ∧ vField w 24 = a ∧ vField w 20 = b ∧ vField w 16 = c ∧ vField w 12 = d ∧
        mField w 9 = ix ∧ mField w 6 = iy ∧ w.extractLsb' 0 6 = 0
  | .mrot => SpellsN w 3
  | .pack => SpellsN w 4
  | .init => SpellsN w 5
  | .fold => SpellsN w 6
  | .final => SpellsN w 7
  | .ser => SpellsN w 8
  | .halt => SpellsN w 9

/-! A field as a digit of the word's number. -/

theorem extractLsb'_eq_iff (w : UWord) (lo len : Nat) (x : BitVec len) :
    w.extractLsb' lo len = x ↔ w.toNat / 2 ^ lo % 2 ^ len = x.toNat := by
  rw [← BitVec.toNat_inj, BitVec.extractLsb'_toNat, Nat.shiftRight_eq_div_pow]

theorem opField_eq_iff (w : UWord) (op : BitVec 4) : opField w = op ↔ w.toNat / 2 ^ 28 % 2 ^ 4 = op.toNat :=
  extractLsb'_eq_iff w 28 4 op

theorem vField_eq_iff (w : UWord) (lo : Nat) (x : Fin 16) : vField w lo = x ↔ w.toNat / 2 ^ lo % 2 ^ 4 = x.val :=
  Fin.ext_iff.trans (BitVec.toNat_inj.trans (extractLsb'_eq_iff w lo 4 (.ofFin x)))

theorem mField_eq_iff (w : UWord) (lo : Nat) (x : Fin 8) : mField w lo = x ↔ w.toNat / 2 ^ lo % 2 ^ 3 = x.val :=
  Fin.ext_iff.trans (BitVec.toNat_inj.trans (extractLsb'_eq_iff w lo 3 (.ofFin x)))

theorem nField_eq_iff (w : UWord) (x : Fin 64) : nField w = x ↔ w.toNat / 2 ^ 0 % 2 ^ 6 = x.val :=
  Fin.ext_iff.trans (BitVec.toNat_inj.trans (extractLsb'_eq_iff w 0 6 (.ofFin x)))

/-- A field placed where the word has no bits adds its value at that place. -/
theorem toNat_or_place {x : UWord} {n v lo : Nat} (hx : x.toNat = n) (len : Nat) (hlen : lo + len ≤ 32)
    (hv : v < 2 ^ len) (hn : n % 2 ^ (lo + len) = 0) : (x ||| place v lo).toNat = n + v * 2 ^ lo := by
  have hfits : v * 2 ^ lo < 2 ^ (lo + len) := by
    rw [pow_add, mul_comm]; exact Nat.mul_lt_mul_of_pos_left hv (by positivity)
  have h32 : v * 2 ^ lo < 2 ^ 32 := hfits.trans_le (Nat.pow_le_pow_right (by decide) hlen)
  have hv32 : v < 2 ^ 32 := (Nat.le_mul_of_pos_right v (by positivity)).trans_lt h32
  have hplace : (place v lo).toNat = v * 2 ^ lo := by
    rw [place, BitVec.toNat_shiftLeft, BitVec.toNat_ofNat, Nat.mod_eq_of_lt hv32, Nat.shiftLeft_eq,
      Nat.mod_eq_of_lt h32]
  obtain ⟨k, rfl⟩ := Nat.dvd_of_mod_eq_zero hn
  rw [BitVec.toNat_or, hplace, hx, Nat.two_pow_add_eq_or_of_lt hfits]

theorem encode_rotr_toNat (vd vs : Fin 16) (n : Fin 64) :
    (encode (.rotr vd vs n)).toNat = 1 * 2 ^ 28 + vd * 2 ^ 24 + vs * 2 ^ 20 + n * 2 ^ 0 := by
  have hop : (0x10000000#32).toNat = 1 * 2 ^ 28 := rfl
  have hvd := toNat_or_place hop (lo := 24) 4 (by decide) vd.isLt (by decide)
  have hvs := toNat_or_place hvd (lo := 20) 4 (by decide) vs.isLt (by omega)
  exact toNat_or_place hvs (lo := 0) 6 (by decide) n.isLt (by omega)

theorem encode_g_toNat (a b c d : Fin 16) (ix iy : Fin 8) :
    (encode (.g a b c d ix iy)).toNat =
      2 * 2 ^ 28 + a * 2 ^ 24 + b * 2 ^ 20 + c * 2 ^ 16 + d * 2 ^ 12 + ix * 2 ^ 9 + iy * 2 ^ 6 := by
  have hop : (0x20000000#32).toNat = 2 * 2 ^ 28 := rfl
  have ha := toNat_or_place hop (lo := 24) 4 (by decide) a.isLt (by decide)
  have hb := toNat_or_place ha (lo := 20) 4 (by decide) b.isLt (by omega)
  have hc := toNat_or_place hb (lo := 16) 4 (by decide) c.isLt (by omega)
  have hd := toNat_or_place hc (lo := 12) 4 (by decide) d.isLt (by omega)
  have hix := toNat_or_place hd (lo := 9) 3 (by decide) ix.isLt (by omega)
  exact toNat_or_place hix (lo := 6) 3 (by decide) iy.isLt (by omega)

theorem eq_word_iff_spellsN (w : UWord) (op : BitVec 4) : w = op.setWidth 32 <<< 28 ↔ SpellsN w op := by
  rw [← BitVec.toNat_inj, BitVec.toNat_shiftLeft, BitVec.toNat_setWidth_of_le (by decide), Nat.shiftLeft_eq]
  simp only [SpellsN, opField_eq_iff, extractLsb'_eq_iff, BitVec.ofNat_eq_ofNat, BitVec.toNat_ofNat]
  omega

/-- The fields of a word determine it. -/
theorem eq_encode_iff (w : UWord) (i : Instr) : w = encode i ↔ Spells w i := by
  cases i with
  | rotr vd vs n =>
    rw [← BitVec.toNat_inj, encode_rotr_toNat]
    simp only [Spells, opField_eq_iff, vField_eq_iff, extractLsb'_eq_iff, nField_eq_iff, BitVec.ofNat_eq_ofNat,
      BitVec.toNat_ofNat]
    omega
  | g a b c d ix iy =>
    rw [← BitVec.toNat_inj, encode_g_toNat]
    simp only [Spells, opField_eq_iff, vField_eq_iff, mField_eq_iff, extractLsb'_eq_iff, BitVec.ofNat_eq_ofNat,
      BitVec.toNat_ofNat]
    omega
  | mrot => exact eq_word_iff_spellsN w 3
  | pack => exact eq_word_iff_spellsN w 4
  | init => exact eq_word_iff_spellsN w 5
  | fold => exact eq_word_iff_spellsN w 6
  | final => exact eq_word_iff_spellsN w 7
  | ser => exact eq_word_iff_spellsN w 8
  | halt => exact eq_word_iff_spellsN w 9

/-! ### The decoder by the operation field (R70, R73) -/

theorem decodeN_zeros {j : Instr} (h : decodeN w j = .legal i) : w.extractLsb' 0 28 = 0 := by
  unfold decodeN at h
  split at h
  · assumption
  · cases h

theorem decodeR_spells (h : decodeR w = .legal i) (hop : opField w = 1) : Spells w i := by
  unfold decodeR at h
  split at h
  · cases h
  · next hz =>
    split at h
    · cases h
    · cases h; exact ⟨hop, rfl, rfl, not_not.mp hz, rfl⟩

theorem decodeG_spells (h : decodeG w = .legal i) (hop : opField w = 2) : Spells w i := by
  unfold decodeG at h
  split at h
  · cases h
  · next hz =>
    split at h
    · cases h; exact ⟨hop, rfl, rfl, rfl, rfl, rfl, rfl, not_not.mp hz⟩
    · cases h

theorem spells_of_decode (h : decode w = .legal i) : Spells w i := by
  unfold decode at h
  split at h
  case h_1 hop => exact decodeR_spells h (BitVec.eq_of_toNat_eq hop)
  case h_2 hop => exact decodeG_spells h (BitVec.eq_of_toNat_eq hop)
  case h_10 => cases h
  all_goals
    next hop =>
    obtain rfl := decodeN_legal h
    exact ⟨BitVec.eq_of_toNat_eq hop, decodeN_zeros h⟩

theorem decode_of_spells (h : Spells w i) (hw : i.wellFormed = true) : decode w = .legal i := by
  cases i with
  | rotr vd vs n =>
    obtain ⟨hop, rfl, rfl, hz, rfl⟩ := h
    have hn : nField w ≠ 0 := by simpa [Instr.wellFormed] using hw
    simp [decode, hop, decodeR, hz, hn]
  | g a b c d ix iy =>
    obtain ⟨hop, rfl, rfl, rfl, rfl, rfl, rfl, hz⟩ := h
    have hd : distinct4 _ _ _ _ = true := hw
    simp [decode, hop, decodeG, hz, hd]
  | mrot | pack | init | fold | final | ser | halt =>
    obtain ⟨hop, hz⟩ := h
    simp [decode, hop, decodeN, hz]

/-! ### The illegal words (R74) -/

theorem decodeN_illegal_iff {j : Instr} : (∃ r, decodeN w j = .illegal r) ↔ w.extractLsb' 0 28 ≠ 0 := by
  unfold decodeN
  split
  · next hz => exact iff_of_false (by simp) (not_not.mpr hz)
  · next hz => exact iff_of_true ⟨_, rfl⟩ hz

theorem nField_eq_zero_iff : nField w = 0 ↔ w.extractLsb' 0 6 = 0 :=
  (nField_eq_iff w 0).trans (extractLsb'_eq_iff w 0 6 0).symm

theorem decodeR_illegal_iff :
    (∃ r, decodeR w = .illegal r) ↔ w.extractLsb' 6 14 ≠ 0 ∨ w.extractLsb' 0 6 = 0 := by
  rw [← nField_eq_zero_iff]
  unfold decodeR
  split
  · next hz => exact iff_of_true ⟨_, rfl⟩ (.inl hz)
  · next hz =>
    split
    · next hn => exact iff_of_true ⟨_, rfl⟩ (.inr hn)
    · next hn => exact iff_of_false (by simp) (not_or.mpr ⟨hz, hn⟩)

/-- Two of the four `V` indices of `G` are equal: two of the fields that begin at bits 24, 20, 16, 12. -/
def Aliased (w : UWord) : Prop :=
  ∃ p ∈ [24, 20, 16, 12], ∃ q ∈ [24, 20, 16, 12], p ≠ q ∧ w.extractLsb' p 4 = w.extractLsb' q 4

theorem aliased_iff :
    Aliased w ↔ distinct4 (vField w 24) (vField w 20) (vField w 16) (vField w 12) = false := by
  have hfield (p q : Nat) : w.extractLsb' p 4 = w.extractLsb' q 4 ↔ vField w p = vField w q := BitVec.toFin_inj.symm
  constructor
  · rintro ⟨p, hp, q, hq, hne, he⟩
    rw [hfield] at he
    simp only [List.mem_cons, List.not_mem_nil, or_false] at hp hq
    grind [distinct4]
  · intro h
    simp only [distinct4, Bool.and_eq_false_iff, bne_eq_false_iff_eq, ← hfield] at h
    obtain ((((h | h) | h) | h) | h) | h := h <;> exact ⟨_, by decide, _, by decide, by decide, h⟩

theorem decodeG_illegal_iff : (∃ r, decodeG w = .illegal r) ↔ w.extractLsb' 0 6 ≠ 0 ∨ Aliased w := by
  rw [aliased_iff]
  unfold decodeG
  split
  · next hz => exact iff_of_true ⟨_, rfl⟩ (.inl hz)
  · next hz =>
    split
    · next hd => exact iff_of_false (by simp) (not_or.mpr ⟨hz, by simp [hd]⟩)
    · next hd => exact iff_of_true ⟨_, rfl⟩ (.inr (by simpa using hd))

/-- The six conditions of R74. -/
theorem decode_illegal_iff : (∃ r, decode w = .illegal r) ↔
    (opField w = 0 ∨ 10 ≤ (opField w).toNat) ∨
    (3 ≤ (opField w).toNat ∧ (opField w).toNat ≤ 9 ∧ w.extractLsb' 0 28 ≠ 0) ∨
    (opField w = 1 ∧ w.extractLsb' 6 14 ≠ 0) ∨ (opField w = 1 ∧ w.extractLsb' 0 6 = 0) ∨
    (opField w = 2 ∧ w.extractLsb' 0 6 ≠ 0) ∨ (opField w = 2 ∧ Aliased w) := by
  have op_eq (k : BitVec 4) : opField w = k ↔ (opField w).toNat = k.toNat := BitVec.toNat_inj.symm
  simp only [op_eq]
  unfold decode
  split
  case h_1 hop => simp [hop, decodeR_illegal_iff]
  case h_2 hop => simp [hop, decodeG_illegal_iff]
  case h_10 => exact iff_of_true ⟨_, rfl⟩ (.inl (by show _ = 0 ∨ _; grind))
  all_goals
    next hop => simp [hop, decodeN_illegal_iff]

/-- Fetching an illegal word raises `IllegalUop` (R74, 60_exceptions.md R172). -/
theorem step_of_illegal_fetch (h : s.fetches w) (hd : ∃ r, decode w = .illegal r) :
    step s = .next s.takeIllegalUop := by
  obtain ⟨hbusy, hquiet, hw⟩ := h
  obtain ⟨r, hd⟩ := hd
  have hdue : s.due? = none := by simp only [State.due?, State.fetchUop, hw, hd]
  rw [step_of_quiet hquiet, coreStep_busy hbusy, sequencerStep_illegal hdue]

/-! ### The words and their micro-ops (R72, R73, R74) -/

/-- Settles O1, by running the decoder. -/
theorem sampleWordsDecode : Obligations.SampleWordsDecode := by
  unfold Obligations.SampleWordsDecode
  decide

/-- Settles O2: the word of a micro-op spells it. -/
theorem decodeOfEncode : Obligations.DecodeOfEncode :=
  fun i hw => decode_of_spells ((eq_encode_iff _ i).mp rfl) hw

/-- Settles O3: a word decodes to what it spells, and what it spells determines it. -/
theorem encodeOfDecode : Obligations.EncodeOfDecode :=
  fun w i h => ⟨((eq_encode_iff w i).mpr (spells_of_decode h)).symm, decode_wellFormed h⟩

/-- Settles O4, by the six conditions, the step at an illegal fetch, the round trip, and the decoder run on the
example words. -/
theorem illegalWordsExactly : Obligations.IllegalWordsExactly := by
  refine ⟨fun w => decode_illegal_iff, fun s w r hf hd => step_of_illegal_fetch hf ⟨r, hd⟩, ?_, by decide, ?_, ?_⟩
  · simp only [List.forall_mem_cons]
    exact ⟨⟨_, rfl⟩, ⟨_, rfl⟩, ⟨_, rfl⟩, ⟨_, rfl⟩, ⟨_, rfl⟩, ⟨_, rfl⟩, ⟨_, rfl⟩, ⟨_, rfl⟩, List.forall_mem_nil _⟩
  · exact fun vd n hn => decodeOfEncode _ (by simpa [Instr.wellFormed] using hn)
  · exact fun a b c d ix hd => decodeOfEncode _ hd

end Sys2Proof.Machine

/-! # Proofs: rotation (40_rotate.md)

A rotation moves bit `(i + n) mod 64` of the word to bit `i`, `rotr64_getLsbD`: the laws of R91 are then arithmetic on the
positions of bits. Its value as a number, `rotr64_toNat`, is two numbers written side by side. -/

namespace Sys2Proof.Machine

variable {s : State} {w : UWord} {i : Instr}

/-! ### The bits of a rotation (R90) -/

theorem rotr64_getLsbD (x : Word) (n : Amount) {i : Nat} (hi : i < 64) :
    (rotr64 x n).getLsbD i = x.getLsbD ((i + n.val) % 64) := by
  have hn : n.val < 64 := Nat.lt_succ_of_le n.le63
  rw [rotr64_eq_rotateRight, BitVec.getLsbD_rotateRight_of_lt hn]
  by_cases hwrap : i < 64 - n.val
  · have hpos : (i + n.val) % 64 = n.val + i := by omega
    simp [hwrap, hpos]
  · have hpos : (i + n.val) % 64 = i - (64 - n.val) := by omega
    simp [hwrap, hpos, hi]

/-- The two operands of the `|` have no one bit in common. -/
theorem rotr64_operands_disjoint (x : Word) (n : Amount) : (x >>> n.val) &&& (x <<< (64 - n.val)) = 0#64 := by
  refine BitVec.eq_of_getLsbD_eq fun i hi => ?_
  rw [BitVec.getLsbD_and, BitVec.getLsbD_ushiftRight, BitVec.getLsbD_shiftLeft, BitVec.getLsbD_zero]
  by_cases hlow : i < 64 - n.val
  · simp [hlow]
  · have hout : x.getLsbD (n.val + i) = false := BitVec.getLsbD_of_ge _ _ (by omega)
    simp [hout]

theorem rotr64_eq_add (x : Word) (n : Amount) : rotr64 x n = (x >>> n.val) + (x <<< (64 - n.val)) :=
  (BitVec.add_eq_or_of_and_eq_zero _ _ (rotr64_operands_disjoint x n)).symm

/-- Where no two one bits meet, OR is XOR. -/
theorem or_eq_xor_of_and_eq_zero {x y : Word} (h : x &&& y = 0#64) : x ||| y = x ^^^ y := by
  refine BitVec.eq_of_getLsbD_eq fun i _ => ?_
  have hone : (x.getLsbD i && y.getLsbD i) = false := by rw [← BitVec.getLsbD_and, h, BitVec.getLsbD_zero]
  rw [BitVec.getLsbD_or, BitVec.getLsbD_xor]
  cases hx : x.getLsbD i with
  | false => simp
  | true =>
    have hy : y.getLsbD i = false := by simpa [hx] using hone
    simp [hy]

theorem rotr64_eq_xor (x : Word) (n : Amount) : rotr64 x n = (x >>> n.val) ^^^ (x <<< (64 - n.val)) :=
  or_eq_xor_of_and_eq_zero (rotr64_operands_disjoint x n)

/-! ### The value of a rotation (R90) -/

theorem rotr64_toNat_or (x : Word) (n : Amount) :
    (rotr64 x n).toNat = ((x.toNat >>> n.val) ||| (x.toNat <<< (64 - n.val))) % 2 ^ 64 := by
  have hshift : x.toNat >>> n.val < 2 ^ 64 := (Nat.shiftRight_le _ _).trans_lt x.isLt
  rw [rotr64, BitVec.toNat_or, BitVec.toNat_ushiftRight, BitVec.toNat_shiftLeft, Nat.or_mod_two_pow,
    Nat.mod_eq_of_lt hshift]

/-- The low `n` bits above the high `64 - n` bits. -/
theorem rotr64_toNat (x : Word) (n : Amount) :
    (rotr64 x n).toNat = x.toNat / 2 ^ n.val + x.toNat % 2 ^ n.val * 2 ^ (64 - n.val) := by
  have hsplit : 2 ^ 64 = 2 ^ n.val * 2 ^ (64 - n.val) := by
    rw [← pow_add, Nat.add_sub_cancel' (n.le63.trans (by decide))]
  have hhigh : x.toNat / 2 ^ n.val < 2 ^ (64 - n.val) :=
    Nat.div_lt_of_lt_mul (hsplit ▸ x.isLt)
  have hlow : x.toNat * 2 ^ (64 - n.val) % 2 ^ 64 = 2 ^ (64 - n.val) * (x.toNat % 2 ^ n.val) := by
    rw [hsplit, Nat.mul_mod_mul_right, mul_comm]
  rw [rotr64, BitVec.toNat_or, BitVec.toNat_ushiftRight, BitVec.toNat_shiftLeft, Nat.shiftRight_eq_div_pow,
    Nat.shiftLeft_eq, hlow, Nat.or_comm, ← Nat.two_pow_add_eq_or_of_lt hhigh, add_comm, mul_comm]

/-- Settles O42, by the value and the bits of a rotation and the disjoint operands of its `|`. -/
theorem rotateIsTheFormula : Obligations.RotateIsTheFormula :=
  ⟨fun x n => ⟨rotr64_toNat_or x n, rotr64_toNat x n, fun _ hi => rotr64_getLsbD x n hi, rotr64_eq_add x n,
    rotr64_eq_xor x n⟩, by decide⟩

/-! ### The laws of rotation (R91) -/

/-- Two rotations move every bit by the sum of their amounts. -/
theorem rotr64_rotr64_getLsbD (x : Word) (n k : Amount) {i : Nat} (hi : i < 64) :
    (rotr64 (rotr64 x n) k).getLsbD i = x.getLsbD ((i + (n.val + k.val)) % 64) := by
  rw [rotr64_getLsbD _ k hi, rotr64_getLsbD x n (Nat.mod_lt _ (by decide)), Nat.mod_add_mod, Nat.add_assoc,
    Nat.add_comm k.val]

/-- R91 (a), (f): amounts that add up to 64 cancel. -/
theorem rotr64_rotr64_cancel (x : Word) {n k : Amount} (h : n.val + k.val = 64) : rotr64 (rotr64 x n) k = x := by
  refine BitVec.eq_of_getLsbD_eq fun i hi => ?_
  rw [rotr64_rotr64_getLsbD x n k hi, h, Nat.add_mod_right, Nat.mod_eq_of_lt hi]

/-- R91 (f): amounts add up modulo 64. -/
theorem rotr64_rotr64 (x : Word) {n k l : Amount} (h : (n.val + k.val) % 64 = l.val) :
    rotr64 (rotr64 x n) k = rotr64 x l := by
  refine BitVec.eq_of_getLsbD_eq fun i hi => ?_
  rw [rotr64_rotr64_getLsbD x n k hi, rotr64_getLsbD x l hi, ← h, Nat.add_mod_mod]

/-- The amount `64 - n`, again in 1..63 (R91 (a)). -/
def Amount.complement (n : Amount) : Amount :=
  ⟨64 - n.val, Nat.le_sub_of_add_le' (Nat.add_le_add_right n.le63 1), Nat.sub_le_sub_left n.pos 64⟩

theorem Amount.add_complement (n : Amount) : n.val + n.complement.val = 64 :=
  Nat.add_sub_cancel' (n.le63.trans (by decide))

theorem Amount.complement_add (n : Amount) : n.complement.val + n.val = 64 :=
  (Nat.add_comm ..).trans n.add_complement

/-- R91 (b): the inverse is the rotation by `64 - n`. -/
theorem rotr64_bijective (n : Amount) : Function.Bijective fun x => rotr64 x n :=
  Function.bijective_iff_has_inverse.mpr ⟨fun x => rotr64 x n.complement,
    fun x => rotr64_rotr64_cancel x n.add_complement, fun x => rotr64_rotr64_cancel x n.complement_add⟩

/-- R91 (c). -/
theorem rotr64_xor (x y : Word) (n : Amount) : rotr64 (x ^^^ y) n = rotr64 x n ^^^ rotr64 y n := by
  refine BitVec.eq_of_getLsbD_eq fun i hi => ?_
  simp only [BitVec.getLsbD_xor, rotr64_getLsbD _ n hi]

/-- R91 (d): a word whose bits are all equal is a fixed point. -/
theorem rotr64_fixed {x : Word} {b : Bool} (hx : ∀ i < 64, x.getLsbD i = b) (n : Amount) : rotr64 x n = x := by
  refine BitVec.eq_of_getLsbD_eq fun i hi => ?_
  rw [rotr64_getLsbD x n hi, hx i hi, hx _ (Nat.mod_lt _ (by decide))]

theorem rotr64_zero (n : Amount) : rotr64 0 n = 0 :=
  rotr64_fixed (fun _ _ => BitVec.getLsbD_zero) n

theorem rotr64_allOnes (n : Amount) : rotr64 (BitVec.allOnes 64) n = BitVec.allOnes 64 :=
  rotr64_fixed (fun _ hi => BitVec.getLsbD_allOnes.trans (decide_eq_true hi)) n

/-- The positions of the one bits of a word. -/
def ones (x : Word) : Finset Nat := (Finset.range 64).filter fun i => x.getLsbD i = true

theorem mem_ones {x : Word} {i : Nat} : i ∈ ones x ↔ i < 64 ∧ x.getLsbD i = true := by simp [ones]

/-- Each one bit of the rotated word comes from one of the word, and no two from the same. -/
theorem card_ones_rotr64_le (x : Word) (n : Amount) : (ones (rotr64 x n)).card ≤ (ones x).card := by
  refine Finset.card_le_card_of_injOn (fun i => (i + n.val) % 64) (fun i hi => ?_) fun i hi j hj hij => ?_
  · obtain ⟨hlt, hone⟩ := mem_ones.mp hi
    rw [rotr64_getLsbD x n hlt] at hone
    exact mem_ones.mpr ⟨Nat.mod_lt _ (by decide), hone⟩
  · have hilt := (mem_ones.mp hi).1
    have hjlt := (mem_ones.mp hj).1
    dsimp only at hij
    omega

/-- R91 (e): nor does the rotation back add a one bit. -/
theorem card_ones_rotr64 (x : Word) (n : Amount) : (ones (rotr64 x n)).card = (ones x).card := by
  have hback := card_ones_rotr64_le (rotr64 x n) n.complement
  rw [rotr64_rotr64_cancel x n.add_complement] at hback
  exact (card_ones_rotr64_le x n).antisymm hback

/-- R91 (h): a rotation by 32 swaps the two halves. -/
theorem rotr64_amount32 (x : Word) : rotr64 x amount32 = x.extractLsb' 0 32 ++ x.extractLsb' 32 32 := by
  refine BitVec.eq_of_getLsbD_eq fun i hi => ?_
  rw [rotr64_getLsbD x amount32 hi, BitVec.getLsbD_append, BitVec.getLsbD_extractLsb', BitVec.getLsbD_extractLsb']
  by_cases hlow : i < 32
  · have hpos : (i + 32) % 64 = 32 + i := by omega
    simp [amount32, hlow, hpos]
  · have hpos : (i + 32) % 64 = i - 32 := by omega
    have hhigh : i - 32 < 32 := by omega
    simp [amount32, hlow, hpos, hhigh]

/-- R91 (g): a rotation by 63 is a rotation left by one place. -/
theorem rotr64_amount63_toNat (x : Word) :
    (rotr64 x amount63).toNat = x.toNat * 2 % 2 ^ 64 + x.toNat / 2 ^ 63 := by
  rw [rotr64_toNat]
  simp only [amount63]
  omega

/-- Settles O43, law by law. -/
theorem rotateLaws : Obligations.RotateLaws :=
  ⟨fun x _ _ h => rotr64_rotr64_cancel x h, rotr64_bijective, rotr64_xor, fun n => ⟨rotr64_zero n, rotr64_allOnes n⟩,
    card_ones_rotr64, fun x _ _ _ h => rotr64_rotr64 x h, rotr64_amount63_toNat, rotr64_amount32⟩

/-! ### The micro-op `ROTR` (R92, R93) -/

/-- Fetching a legal word executes its micro-op (45_sequencer.md R155). -/
theorem step_of_legal_fetch (h : s.fetches w) (hd : decode w = .legal i) : step s = exec i s := by
  obtain ⟨hbusy, hquiet, hw⟩ := h
  rw [step_of_quiet hquiet, coreStep_busy hbusy, sequencerStep_due (State.due?_of_word hw hd)]

/-- The one source of `ROTR` is `V[vs]` (10_state.md R36). -/
theorem readable_rotr (vd vs : Fin 16) (n : Fin 64) : s.readable (.rotr vd vs n) = s.v[vs].isHeld := by
  simp [State.readable, reads, State.holds]

/-- `ROTR` from a register that holds a value (R92). -/
theorem exec_rotr_held {vd vs : Fin 16} {n : Fin 64} {k : Amount} {x : Word} (hn : n.val = k.val)
    (hx : s.v[vs] = .held x) :
    exec (.rotr vd vs n) s = .next { s with v := s.v.set vd (.held (rotr64 x k)), upc := s.upc + 1 } := by
  simp only [exec, execRotr, Amount.ofField_some hn, readable_rotr, State.readV_held s hx, hx, Reg.isHeld_held]
  rfl

/-- Settles O9: the effect and the words by what `exec` and the decoder do, the corner cases by the laws of R91. -/
theorem rotrRotatesRegister : Obligations.RotrRotatesRegister := by
  refine ⟨fun _ _ _ _ _ _ hn hx => exec_rotr_held hn hx, fun vd vs n => ?_, fun s w hf hop hbad => ?_,
    fun vd vs n s _ => ?_, fun x => ⟨BitVec.or_comm _ _, rotr64_amount32 x⟩,
    fun k => ⟨rotr64_zero k, rotr64_allOnes k⟩, fun s hv hf => ?_⟩
  · simp only [encode, place, BitVec.shiftLeft_zero]
  · exact step_of_illegal_fetch hf (decode_illegal_iff.mpr (by tauto))
  · rw [← Bool.not_eq_true, ← readable_rotr vd vs n, ← not_specRefuses_iff, not_not]
  · refine ⟨_, (step_of_legal_fetch hf (i := .rotr 0 1 1) (by decide)).trans
      (exec_rotr_held (k := ⟨1, by decide, by decide⟩) rfl hv), ?_⟩
    exact (file_set_getElem s.v 0 0 _).trans ((if_pos rfl).trans (by decide))

/-- Settles O24: such a term is no legal micro-op, and `exec` takes `IllegalUop`. -/
theorem illFormedTermsTakeIllegalUop : Obligations.IllFormedTermsTakeIllegalUop :=
  fun _ _ hw => exec_illFormed hw

end Sys2Proof.Machine

/-! # Proofs: the mixer (41_mixer.md)

`Gf` is two half mixes, and each step of a half mix can be undone, so the mixer is a bijection. That two `G` on disjoint
registers commute is a fact about any two micro-ops neither of which writes what the other reads or writes. -/

namespace Sys2Proof.Machine

variable {s : State} {i j : Instr}

/-! ### The mixer as a bijection (R101, R102) -/

/-- Half of the mixer: four of the eight steps of R100, with the message word `m` and the amounts `n` and `k`. -/
def mixHalf (n k : Amount) (m : Word) : Word × Word × Word × Word → Word × Word × Word × Word
  | (a, b, c, d) =>
    let a' := add64 (add64 a b) m
    let d' := rotr64 (d ^^^ a') n
    let c' := add64 c d'
    (a', rotr64 (b ^^^ c') k, c', d')

/-- The four steps of `mixHalf` undone, the last one first. -/
def unmixHalf (n k : Amount) (m : Word) : Word × Word × Word × Word → Word × Word × Word × Word
  | (a', b', c', d') =>
    let b := rotr64 b' k.complement ^^^ c'
    (a' - m - b, b, c' - d', rotr64 d' n.complement ^^^ a')

/-- The mixer is one half mix after another. -/
theorem Gf_eq_mixHalf_comp (mx my : Word) :
    (fun q : Word × Word × Word × Word => Gf q.1 q.2.1 q.2.2.1 q.2.2.2 mx my) =
      mixHalf amount16 amount63 my ∘ mixHalf amount32 amount24 mx := rfl

theorem unmixHalf_mixHalf (n k : Amount) (m : Word) : Function.LeftInverse (unmixHalf n k m) (mixHalf n k m) := by
  rintro ⟨a, b, c, d⟩
  simp only [mixHalf, unmixHalf, add64, rotr64_rotr64_cancel _ (Amount.add_complement _), BitVec.xor_assoc,
    BitVec.xor_self, BitVec.xor_zero, BitVec.add_sub_cancel]

theorem mixHalf_unmixHalf (n k : Amount) (m : Word) : Function.RightInverse (unmixHalf n k m) (mixHalf n k m) := by
  rintro ⟨a, b, c, d⟩
  simp only [mixHalf, unmixHalf, add64, BitVec.sub_add_cancel, BitVec.xor_assoc, BitVec.xor_self, BitVec.xor_zero,
    rotr64_rotr64_cancel _ (Amount.complement_add _)]

theorem mixHalf_bijective (n k : Amount) (m : Word) : Function.Bijective (mixHalf n k m) :=
  ⟨(unmixHalf_mixHalf n k m).injective, (mixHalf_unmixHalf n k m).surjective⟩

/-- Settles O45: both halves of the mixer are bijections. -/
theorem mixerIsBijective : Obligations.MixerIsBijective := by
  refine ⟨fun mx my => ?_, by decide⟩
  rw [Gf_eq_mixHalf_comp]
  exact (mixHalf_bijective _ _ my).comp (mixHalf_bijective _ _ mx)

/-! ### The micro-op `G` (R100) -/

/-- The spec refuses `G` exactly when one of its six sources holds no value (10_state.md R32, R36). -/
theorem specRefuses_g (a b c d : Fin 16) (ix iy : Fin 8) :
    specRefuses (.g a b c d ix iy) s ↔
      (s.v[a].isHeld = false ∨ s.v[b].isHeld = false ∨ s.v[c].isHeld = false ∨ s.v[d].isHeld = false ∨
        s.m[ix].isHeld = false ∨ s.m[iy].isHeld = false) := by
  simp [specRefuses, reads, State.holds]

/-- `G` on sources that hold values: the four words of `Gf` are written as values (R101). -/
theorem exec_g_held {a b c d : Fin 16} {ix iy : Fin 8} {va vb vc vd mx my : Word} (hd4 : distinct4 a b c d = true)
    (ha : s.v[a] = .held va) (hb : s.v[b] = .held vb) (hc : s.v[c] = .held vc) (hd : s.v[d] = .held vd)
    (hx : s.m[ix] = .held mx) (hy : s.m[iy] = .held my) :
    exec (.g a b c d ix iy) s = .next { s with
      v := (((s.v.set a (.held (Gf va vb vc vd mx my).1)).set b (.held (Gf va vb vc vd mx my).2.1)).set c
        (.held (Gf va vb vc vd mx my).2.2.1)).set d (.held (Gf va vb vc vd mx my).2.2.2)
      upc := s.upc + 1 } := by
  have hok : s.readable (.g a b c d ix iy) = true := by
    rw [← not_specRefuses_iff, specRefuses_g]
    simp only [ha, hb, hc, hd, hx, hy, Reg.isHeld_held, Bool.true_eq_false, or_self, not_false_eq_true]
  rw [exec_legal (i := .g a b c d ix iy) hd4, result_g ix iy hd4, hok, s.readV_held ha, s.readV_held hb,
    s.readV_held hc, s.readV_held hd, s.readM_held hx, s.readM_held hy]
  rfl

/-- Settles O10: the effect by the closed form of the eight steps, the words by what the decoder does. -/
theorem gMixesFourRegisters : Obligations.GMixesFourRegisters := by
  refine ⟨fun a b c d ix iy s va vb vc vd mx my hd4 ha hb hc hd hx hy => exec_g_held hd4 ha hb hc hd hx hy,
    fun a b c d ix iy => rfl, fun s w hf hop hbad => ?_, fun a b c d ix iy s _ => specRefuses_g a b c d ix iy,
    by decide⟩
  refine step_of_illegal_fetch hf (decode_illegal_iff.mpr ?_)
  obtain hz | halias := hbad
  · exact .inr (.inr (.inr (.inr (.inl ⟨hop, hz⟩))))
  · exact .inr (.inr (.inr (.inr (.inr ⟨hop, halias⟩))))

/-! ### Micro-ops that do not touch each other's elements (10_state.md R36) -/

/-- `j` writes nothing that `i` reads or writes. -/
def Spares (j i : Instr) : Prop := ∀ e, writes j e = true → e ∉ reads i ∧ writes i e = false

/-- A micro-op that spares another leaves it its inputs. -/
theorem Spares.sameInputs (h : Spares j i) (hw : j.wellFormed = true) (s : State) : SameInputs i (result j s) s where
  elements e he := result_element_of_not_writes hw (Bool.eq_false_iff.mpr fun hj => (h e hj).1 he)
  din _ := result_din j s
  iv _ := by rw [result_cfg]
  fold _ := by simp

/-- What an element is after the one and then the other, each seen from the state before both. -/
theorem Spares.result_result_element (h : Spares j i) (hi : i.wellFormed = true) (hj : j.wellFormed = true) (s : State)
    (e : Elem) :
    (result i (result j s)).element e =
      if writes i e then .written (s.readable i) (writtenWord s i e)
      else if writes j e then .written (s.readable j) (writtenWord s j e) else s.element e := by
  rw [result_element hi, result_element hj, (h.sameInputs hj s).readable_eq]
  split_ifs with hwi
  · rw [(h.sameInputs hj s).writtenWord_eq hwi]
  all_goals rfl

/-- Two micro-ops that spare each other leave every element the same in either order. -/
theorem Spares.result_comm_element (hij : Spares i j) (hji : Spares j i) (hi : i.wellFormed = true)
    (hj : j.wellFormed = true) (s : State) (e : Elem) :
    (result i (result j s)).element e = (result j (result i s)).element e := by
  rw [hji.result_result_element hi hj, hij.result_result_element hj hi]
  split_ifs with hwi hwj
  · exact absurd hwj (by simp [(hij e hwi).2])
  all_goals rfl

/-- A list of two legal micro-ops completes with the two results. -/
theorem execAll_pair (hi : i.wellFormed = true) (hj : j.wellFormed = true) (s : State) :
    execAll [i, j] s = .next (result j (result i s)) := by
  simp only [execAll, exec_legal hi, exec_legal hj]

/-! ### Two `G` on disjoint registers (R102) -/

section TwoMixers

variable {a b c d a' b' c' d' : Fin 16} (ix iy ix' iy' : Fin 8)

/-- `G` reads no register of the other, and it writes `V` only, which holds none of the other's message words. -/
theorem spares_g (h : ∀ p ∈ [a, b, c, d], ∀ q ∈ [a', b', c', d'], p ≠ q) :
    Spares (.g a b c d ix iy) (.g a' b' c' d' ix' iy') := by
  intro e he
  cases e with
  | v r =>
    have hr : r ∈ [a, b, c, d] := by simpa [writes, or_assoc] using he
    have hr' : r ∉ [a', b', c', d'] := fun hmem => h r hr r hmem rfl
    simpa [reads, writes, and_assoc] using hr'
  | m | ch | out => cases he

/-- `G` writes `V` and `UPC` and nothing else (R100). -/
theorem result_g_update (h4 : distinct4 a b c d = true) (s : State) :
    ∃ v, result (.g a b c d ix iy) s = { s with v := v, upc := s.upc + 1 } :=
  ⟨_, result_g ix iy h4⟩

theorem result_g_result_g_update (h4 : distinct4 a b c d = true) (h4' : distinct4 a' b' c' d' = true) (s : State) :
    ∃ v, result (.g a b c d ix iy) (result (.g a' b' c' d' ix' iy') s) = { s with v := v, upc := s.upc + 1 + 1 } := by
  obtain ⟨v', hv'⟩ := result_g_update ix' iy' h4' s
  obtain ⟨v, hv⟩ := result_g_update ix iy h4 (result (.g a' b' c' d' ix' iy') s)
  exact ⟨v, by rw [hv, hv']⟩

/-- The order of two `G` on disjoint registers does not show: only `V` could differ, and no element of it does. -/
theorem result_g_comm (h4 : distinct4 a b c d = true) (h4' : distinct4 a' b' c' d' = true)
    (h : ∀ p ∈ [a, b, c, d], ∀ q ∈ [a', b', c', d'], p ≠ q) (s : State) :
    result (.g a b c d ix iy) (result (.g a' b' c' d' ix' iy') s) =
      result (.g a' b' c' d' ix' iy') (result (.g a b c d ix iy) s) := by
  have hspares := spares_g ix iy ix' iy' h
  have hspares' := spares_g ix' iy' ix iy fun q hq p hp => (h p hp q hq).symm
  have helement (r : Fin 16) := hspares.result_comm_element hspares' h4 h4' s (.v r)
  obtain ⟨v, hv⟩ := result_g_result_g_update ix iy ix' iy' h4 h4' s
  obtain ⟨v', hv'⟩ := result_g_result_g_update ix' iy' ix iy h4' h4 s
  rw [hv, hv'] at helement ⊢
  have hvv : v = v' := file_ext helement
  rw [hvv]

end TwoMixers

/-- Settles O46: two `G` on disjoint registers spare each other. -/
theorem disjointMixersCommute : Obligations.DisjointMixersCommute :=
  fun a b c d a' b' c' d' ix iy ix' iy' s h4 h4' h =>
    have hg : (Instr.g a b c d ix iy).wellFormed = true := h4
    have hg' : (Instr.g a' b' c' d' ix' iy').wellFormed = true := h4'
    ⟨_, execAll_pair hg hg' s,
      (execAll_pair hg' hg s).trans (congrArg _ (result_g_comm ix iy ix' iy' h4 h4' h s))⟩

end Sys2Proof.Machine

/-! # Proofs: the permutation (42_permutation.md)

`MROT` and `G` on files that hold values are equations between states, so `PERMUTE` is run by rewriting: eight `G` are one
`applyRound`, and the `MROT` between two rounds shifts the ordering by one. A row replaces four words by a bijective function
of the four, so a round, and five of them, are bijections. -/

namespace Sys2Proof.Machine

variable {s : State}

/-! ### The micro-op `MROT` (R110, R111) -/

/-- One advance of the counter and then `k`. -/
theorem upc_succ_add (u : BitVec 6) (k : Nat) : u + 1 + BitVec.ofNat 6 k = u + BitVec.ofNat 6 (k + 1) := by
  rw [BitVec.add_assoc, BitVec.add_comm 1, BitVec.ofNat_add]
  rfl

/-- Loading `M` with the values it holds changes nothing. -/
theorem State.loadM_held {mb : Fin 8 → Word} (h : ∀ j : Fin 8, s.m[j] = .held (mb j)) : s.loadM true mb = s := by
  have hm : (tabulate fun j => Reg.written true (mb j)) = s.m :=
    file_ext fun j => (tabulate_getElem_fin _ j).trans (h j).symm
  simp only [State.loadM, hm]

/-- The spec refuses `MROT` exactly when a word of the ordering holds no value (10_state.md R32, R36). -/
theorem specRefuses_mrot : specRefuses .mrot s ↔ ∃ j : Fin 8, s.m[j].isHeld = false := by
  simp [specRefuses, reads, State.holds]

/-- `MROT` on an ordering that holds values (R110). -/
theorem exec_mrot_held {mb : Fin 8 → Word} (h : ∀ j : Fin 8, s.m[j] = .held (mb j)) :
    exec .mrot s = .next (s.loadM true fun j => mb (j + 1)).advance := by
  have hok : s.readable .mrot = true := by
    rw [← not_specRefuses_iff, specRefuses_mrot]
    rintro ⟨j, hj⟩
    simp [h j, -Fin.getElem_fin] at hj
  have hread (j : Fin 8) : s.readM j = mb j := s.readM_held (h j)
  simp only [exec, execMrot, hok, hread]

/-- `k` executions of `MROT` rotate the ordering by `k` places (R111). -/
theorem execAll_replicate_mrot (k : Nat) {mb : Fin 8 → Word} (h : ∀ j : Fin 8, s.m[j] = .held (mb j)) :
    execAll (List.replicate k .mrot) s =
      .next { s.loadM true fun j => mb (j + Fin.ofNat 8 k) with upc := s.upc + BitVec.ofNat 6 k } := by
  induction k generalizing s mb with
  | zero =>
    have hm : (s.loadM true fun j => mb (j + Fin.ofNat 8 0)) = s := State.loadM_held (by simpa using h)
    rw [hm]
    simp [execAll]
  | succ k ih =>
    have hpos (j : Fin 8) : j + Fin.ofNat 8 k + 1 = j + Fin.ofNat 8 (k + 1) := by
      ext
      simp only [Fin.val_add, Fin.val_ofNat, Fin.val_one]
      omega
    rw [List.replicate_succ]
    simp only [execAll, exec_mrot_held h]
    rw [ih (mb := fun j => mb (j + 1)) fun j => by simp]
    simp only [hpos, State.advance_upc, State.loadM_upc, upc_succ_add]
    rfl

/-- Settles O11: the effect by `exec_mrot_held`, the words by the decoder, eight rotations by `execAll_replicate_mrot`. -/
theorem mrotRotatesOrdering : Obligations.MrotRotatesOrdering := by
  refine ⟨fun s mb h => ⟨_, exec_mrot_held h, tabulate_getElem_fin _, rfl, fun heq => ?_⟩, rfl,
    fun s w hf hop hbad => ?_, fun s => specRefuses_mrot, fun s h => ?_⟩
  · refine file_ext fun j => (tabulate_getElem_fin _ j).trans ?_
    simp only [h j, heq j, heq (j + 1), Reg.written_true]
  · exact step_of_illegal_fetch hf (decode_illegal_iff.mpr (.inr (.inl ⟨by simp [hop], by simp [hop], hbad⟩)))
  · obtain ⟨mb, hmb⟩ := allHeld_iff.mp h
    have hm : (s.loadM true fun j => mb (j + Fin.ofNat 8 8)) = s := State.loadM_held (by simpa using hmb)
    rw [execAll_replicate_mrot 8 hmb, hm]
    rfl

/-- Settles O47: the words of R111, its positions written as natural numbers. -/
theorem mrotIterated : Obligations.MrotIterated := by
  intro k s mb h
  refine ⟨_, execAll_replicate_mrot k h, fun j => (tabulate_getElem_fin _ j).trans ?_, rfl⟩
  have hpos : j + Fin.ofNat 8 k = ⟨(j.val + k) % 8, Nat.mod_lt _ (by decide)⟩ := by
    ext; simp [Fin.val_add]
  simp only [hpos, Reg.written_true]

/-! ### `PERMUTE` (R112 to R116) -/

/-- `s` with the words `w` in `V`, the words `mb` in `M`, all of them values, and the counter at `u`. -/
def State.fill (s : State) (w : Vector Word 16) (mb : Fin 8 → Word) (u : BitVec 6) : State :=
  { (s.loadV true fun i => w[i]).loadM true mb with upc := u }

@[simp] theorem State.fill_v (w : Vector Word 16) (mb : Fin 8 → Word) (u : BitVec 6) (i : Fin 16) :
    (s.fill w mb u).v[i] = .held w[i] := tabulate_getElem_fin _ i

@[simp] theorem State.fill_m (w : Vector Word 16) (mb : Fin 8 → Word) (u : BitVec 6) (j : Fin 8) :
    (s.fill w mb u).m[j] = .held (mb j) := tabulate_getElem_fin _ j

/-- A state whose `V` and `M` hold values is filled with them. -/
theorem State.eq_fill {w : Vector Word 16} {mb : Fin 8 → Word} (hv : ∀ i : Fin 16, s.v[i] = .held w[i])
    (hm : ∀ j : Fin 8, s.m[j] = .held (mb j)) : s = s.fill w mb s.upc := by
  have hw : (tabulate fun i : Fin 16 => Reg.written true w[i]) = s.v :=
    file_ext fun i => (tabulate_getElem_fin _ i).trans (hv i).symm
  have hload : (s.loadV true fun i => w[i]) = s := by simp only [State.loadV, hw]
  rw [State.fill, hload, State.loadM_held hm]

theorem set_tabulate_held (w : Vector Word 16) (i : Fin 16) (x : Word) :
    (tabulate fun k : Fin 16 => Reg.written true w[k]).set i (.held x) =
      tabulate fun k : Fin 16 => Reg.written true (w.set i x)[k] := by
  refine file_ext fun k => ?_
  rw [file_set_getElem, tabulate_getElem_fin, tabulate_getElem_fin, file_set_getElem]
  split_ifs <;> rfl

/-- `G` on filled files is one `applyGf` (41_mixer.md R101). -/
theorem exec_g_fill {a b c d : Fin 16} (ix iy : Fin 8) (h4 : distinct4 a b c d = true) (w : Vector Word 16)
    (mb : Fin 8 → Word) (u : BitVec 6) :
    exec (.g a b c d ix iy) (s.fill w mb u) = .next (s.fill (applyGf w a b c d (mb ix) (mb iy)) mb (u + 1)) := by
  rw [exec_g_held h4 (State.fill_v ..) (State.fill_v ..) (State.fill_v ..) (State.fill_v ..) (State.fill_m ..)
    (State.fill_m ..)]
  simp only [State.fill, State.loadM_v, State.loadV_v, set_tabulate_held]
  rfl

theorem exec_mrot_fill (w : Vector Word 16) (mb : Fin 8 → Word) (u : BitVec 6) :
    exec .mrot (s.fill w mb u) = .next (s.fill w (fun j => mb (j + 1)) (u + 1)) := by
  rw [exec_mrot_held (State.fill_m w mb u)]
  rfl

/-- The `G` of a row of R112. -/
def MixRow.instr (row : MixRow) : Instr := .g row.a row.b row.c row.d row.ix row.iy

/-- Rows run as `G` with the ordering `r` places on are the rows with offset `r` (R116). -/
theorem execAll_rows {rows : List MixRow} (h4 : ∀ row ∈ rows, distinct4 row.a row.b row.c row.d = true)
    (w : Vector Word 16) (mb : Fin 8 → Word) (r : Fin 8) (u : BitVec 6) :
    execAll (rows.map MixRow.instr) (s.fill w (fun j => mb (j + r)) u) =
      .next (s.fill (rows.foldl (applyRow mb r) w) (fun j => mb (j + r)) (u + BitVec.ofNat 6 rows.length)) := by
  induction rows generalizing w u with
  | nil => simp [execAll]
  | cons row rows ih =>
    simp only [List.map_cons, execAll, MixRow.instr, exec_g_fill _ _ (h4 row List.mem_cons_self)]
    rw [List.length_cons, ← upc_succ_add]
    exact ih (fun row' h => h4 row' (List.mem_cons_of_mem _ h)) _ _

/-- The rows of R112 name four registers each. -/
theorem mixRows_distinct : ∀ row ∈ mixRows, distinct4 row.a row.b row.c row.d = true := by decide

/-- `ROUND` is one round (R115). -/
theorem execAll_roundOps (w : Vector Word 16) (mb : Fin 8 → Word) (r : Fin 8) (u : BitVec 6) :
    execAll roundOps (s.fill w (fun j => mb (j + r)) u) =
      .next (s.fill (applyRound mb w r) (fun j => mb (j + r)) (u + 8)) :=
  execAll_rows mixRows_distinct w mb r u

/-- A round and the `MROT` after it, which moves the ordering to the next round's offset (R116). -/
theorem execAll_roundOps_mrot {r r' : Fin 8} (hr : r + 1 = r') (w : Vector Word 16) (mb : Fin 8 → Word)
    (u : BitVec 6) :
    execAll (roundOps ++ [.mrot]) (s.fill w (fun j => mb (j + r)) u) =
      .next (s.fill (applyRound mb w r) (fun j => mb (j + r')) (u + 9)) := by
  have hpos (j : Fin 8) : j + 1 + r = j + r' := by rw [← hr, add_assoc, add_comm 1]
  have hupc : u + 8 + 1 = u + 9 := BitVec.add_assoc u 8 1
  rw [execAll_append _ _ (execAll_roundOps w mb r u)]
  simp only [execAll, exec_mrot_fill, hpos, hupc]

/-- `PERMUTE` as four rounds with an `MROT` after each, and a fifth (R116). -/
theorem permuteOps_eq : permuteOps =
    (roundOps ++ [.mrot]) ++ ((roundOps ++ [.mrot]) ++ ((roundOps ++ [.mrot]) ++ ((roundOps ++ [.mrot]) ++ roundOps))) :=
  rfl

/-- The micro-ops of `PERMUTE` compute the closed form of its five rounds. -/
theorem execAll_permuteOps (w : Vector Word 16) (mb : Fin 8 → Word) (u : BitVec 6) :
    execAll permuteOps (s.fill w mb u) = .next (s.fill (permuteFn mb w) (fun j => mb (j + 4)) (u + 44)) := by
  have hstart : s.fill w mb u = s.fill w (fun j => mb (j + 0)) u := by simp only [add_zero]
  have hupc : u + 9 + 9 + 9 + 9 + 8 = u + 44 := by simp only [BitVec.add_assoc]; rfl
  have hround (r r' : Fin 8) (hr : r + 1 = r') (w : Vector Word 16) (u : BitVec 6) (ops : List Instr) :=
    execAll_append _ ops (execAll_roundOps_mrot (s := s) hr w mb u)
  rw [hstart, permuteOps_eq, hround 0 1 rfl, hround 1 2 rfl, hround 2 3 rfl, hround 3 4 rfl, execAll_roundOps, hupc]
  simp only [permuteFn, List.foldl_cons, List.foldl_nil]

/-- Settles O48: the files hold the words of a filled state. -/
theorem permuteRunsFiveRounds : Obligations.PermuteRunsFiveRounds := by
  intro s w mb hv hm
  refine ⟨s.fill (permuteFn mb w) (fun j => mb (j + 4)) (s.upc + 44), ?_, State.fill_v _ _ _, State.fill_m _ _ _, rfl⟩
  rw [← execAll_permuteOps, ← State.eq_fill hv hm]

/-! ### `PERMUTE` as a bijection (R117) -/

/-- The words at four places. -/
def quadAt (v : Vector Word 16) (a b c d : Fin 16) : Word × Word × Word × Word := (v[a], v[b], v[c], v[d])

/-- The words at four places replaced. -/
def setQuadAt (v : Vector Word 16) (a b c d : Fin 16) (q : Word × Word × Word × Word) : Vector Word 16 :=
  (((v.set a q.1).set b q.2.1).set c q.2.2.1).set d q.2.2.2

/-- A row of the round changes the words at its four places by the mixer. -/
theorem applyGf_eq (v : Vector Word 16) (a b c d : Fin 16) (mx my : Word) :
    applyGf v a b c d mx my = setQuadAt v a b c d
      ((fun q : Word × Word × Word × Word => Gf q.1 q.2.1 q.2.2.1 q.2.2.2 mx my) (quadAt v a b c d)) := rfl

section Quad

variable {a b c d : Fin 16} (v : Vector Word 16)

theorem quadAt_setQuadAt (h4 : distinct4 a b c d = true) (q : Word × Word × Word × Word) :
    quadAt (setQuadAt v a b c d q) a b c d = q := by
  obtain ⟨ab, ac, ad, bc, bd, cd⟩ := distinct4_iff.mp h4
  simp only [quadAt, setQuadAt, file_set_getElem, ab, ac, ad, bc, bd, cd, if_true, if_false]

theorem setQuadAt_quadAt : setQuadAt v a b c d (quadAt v a b c d) = v := by
  simp [setQuadAt, quadAt]

theorem setQuadAt_setQuadAt (q q' : Word × Word × Word × Word) :
    setQuadAt (setQuadAt v a b c d q) a b c d q' = setQuadAt v a b c d q' := by
  refine file_ext fun k => ?_
  simp only [setQuadAt, file_set_getElem]
  split_ifs <;> rfl

end Quad

/-- Changing the words at four distinct places by a bijection can be undone, by its inverse there. -/
theorem setQuadAt_bijective {a b c d : Fin 16} (h4 : distinct4 a b c d = true)
    {f : Word × Word × Word × Word → Word × Word × Word × Word} (hf : Function.Bijective f) :
    Function.Bijective fun v : Vector Word 16 => setQuadAt v a b c d (f (quadAt v a b c d)) := by
  obtain ⟨g, hgf, hfg⟩ := Function.bijective_iff_has_inverse.mp hf
  refine Function.bijective_iff_has_inverse.mpr
    ⟨fun v => setQuadAt v a b c d (g (quadAt v a b c d)), fun v => ?_, fun v => ?_⟩
  · simp only [quadAt_setQuadAt _ h4, setQuadAt_setQuadAt, hgf _, setQuadAt_quadAt]
  · simp only [quadAt_setQuadAt _ h4, setQuadAt_setQuadAt, hfg _, setQuadAt_quadAt]

/-- Bijections one after another, one for each element of a list, are a bijection. -/
theorem foldl_bijective {α β : Type} {f : α → β → α} {l : List β} (h : ∀ b ∈ l, Function.Bijective fun x => f x b) :
    Function.Bijective fun x => l.foldl f x := by
  induction l with
  | nil => exact Function.bijective_id
  | cons b l ih =>
    exact (ih fun b' hb' => h b' (List.mem_cons_of_mem _ hb')).comp (h b List.mem_cons_self)

/-- For fixed message words the mixer on four distinct places is a bijection, as `Gf` is (41_mixer.md R102). -/
theorem applyGf_bijective {a b c d : Fin 16} (h4 : distinct4 a b c d = true) (mx my : Word) :
    Function.Bijective fun v => applyGf v a b c d mx my := by
  simpa only [← applyGf_eq] using setQuadAt_bijective h4 (mixerIsBijective.1 mx my)

theorem applyRow_bijective (mb : Fin 8 → Word) (r : Fin 8) {row : MixRow}
    (h4 : distinct4 row.a row.b row.c row.d = true) : Function.Bijective fun v => applyRow mb r v row :=
  applyGf_bijective h4 _ _

theorem applyRound_bijective (mb : Fin 8 → Word) (r : Fin 8) : Function.Bijective fun v => applyRound mb v r :=
  foldl_bijective fun row hrow => applyRow_bijective mb r (mixRows_distinct row hrow)

/-- Settles O49: each of the five rounds is a bijection. -/
theorem permuteIsBijective : Obligations.PermuteIsBijective :=
  fun mb => foldl_bijective fun r _ => applyRound_bijective mb r

end Sys2Proof.Machine

/-! # Proofs: the block codec and the compressor's ends (43_codec_compressor.md)

The word `PACK` writes determines its eight bytes, so two inputs pack to the same words exactly when their padded blocks
agree, `packWord_eq_iff`: the laws of R126 are then about lists of bytes. `INIT` and `FOLD` on files that hold values are
equations between states, and the words they write are given position by position. -/

namespace Sys2Proof.Machine

variable {s : State} {w : UWord} {i : Instr}

/-! ### The padded block and its words (R125) -/

theorem paddedByte_toNat (data : List Byte) (k : Nat) :
    (paddedByte data k).toNat = if h : k < data.length then data[k].toNat else 0 := by
  by_cases h : k < data.length <;> simp [paddedByte, h]

theorem packWord_toNat (data : List Byte) (j : Fin 8) :
    (packWord data j).toNat = ∑ k ∈ Finset.range 8,
      (if h : 8 * j.val + k < data.length then data[8 * j.val + k].toNat else 0) * 2 ^ (8 * k) := by
  simp only [packWord, le64_toNat, paddedByte_toNat, Finset.sum_range]

/-- Byte `k` of the padded block is byte `k mod 8` of word `k / 8`. -/
theorem byteOf_packWord (data : List Byte) {k : Nat} (hk : k < 64) :
    byteOf (packWord data ⟨k / 8, by omega⟩) (k % 8) = paddedByte data k := by
  rw [packWord, byteOf_le64 _ ⟨k % 8, by omega⟩]
  exact congrArg (paddedByte data) (Nat.div_add_mod k 8)

/-- Two inputs pack to the same words exactly when their padded blocks agree. -/
theorem packWord_eq_iff {x y : List Byte} :
    packWord x = packWord y ↔ ∀ k < 64, paddedByte x k = paddedByte y k := by
  constructor
  · intro h k hk
    rw [← byteOf_packWord x hk, ← byteOf_packWord y hk, h]
  · intro h
    funext j
    exact congrArg le64 (funext fun k => h _ (by omega))

/-! ### The laws of packing (R126) -/

/-- R126 (a): bytes at or after offset 64 do not matter. -/
theorem packWord_take_append {x : List Byte} (y : List Byte) (hx : 64 ≤ x.length) :
    packWord (x.take 64 ++ y) = packWord x := by
  refine packWord_eq_iff.mpr fun k hk => ?_
  have hlen : k < (x.take 64).length := by rw [List.length_take]; omega
  simp only [paddedByte, List.getElem?_append_left hlen, List.getElem?_take_of_lt hk]

/-- A zero byte after the input is the padding's own. -/
theorem paddedByte_append_zeros (x : List Byte) (n k : Nat) :
    paddedByte (x ++ List.replicate n 0#8) k = paddedByte x k := by
  by_cases hk : k < x.length
  · simp only [paddedByte, List.getElem?_append_left hk]
  · have hge : x.length ≤ k := Nat.le_of_not_lt hk
    simp only [paddedByte, List.getElem?_append_right hge, List.getElem?_eq_none hge, List.getElem?_replicate]
    split_ifs <;> rfl

/-- R126 (b), (c). -/
theorem packWord_append_zeros (x : List Byte) (n : Nat) : packWord (x ++ List.replicate n 0#8) = packWord x :=
  packWord_eq_iff.mpr fun k _ => paddedByte_append_zeros x n k

/-- R126 (d): an input of 64 bytes is its padded block. -/
theorem eq_of_packWord_eq {x y : List Byte} (hx : x.length = 64) (hy : y.length = 64) (h : packWord x = packWord y) :
    x = y := by
  refine List.ext_getElem (hx.trans hy.symm) fun k hkx hky => ?_
  have hk := packWord_eq_iff.mp h k (hx ▸ hkx)
  simpa only [paddedByte, List.getElem?_eq_getElem hkx, List.getElem?_eq_getElem hky, Option.getD_some] using hk

/-- The 64 bytes of eight words, each in little-endian order. -/
def bytesOfWords (f : Fin 8 → Word) : List Byte :=
  List.ofFn fun k : Fin 64 => byteOf (f ⟨k.val / 8, by omega⟩) (k.val % 8)

theorem bytesOfWords_length (f : Fin 8 → Word) : (bytesOfWords f).length = 64 := List.length_ofFn

theorem paddedByte_bytesOfWords (f : Fin 8 → Word) (j k : Fin 8) :
    paddedByte (bytesOfWords f) (8 * j.val + k.val) = byteOf (f j) k := by
  have hlt : 8 * j.val + k.val < 64 := by omega
  have hword : (8 * j.val + k.val) / 8 = j.val := by omega
  have hbyte : (8 * j.val + k.val) % 8 = k.val := by omega
  simp only [paddedByte, bytesOfWords, List.getElem?_ofFn, hlt, hword, hbyte, dif_pos, Option.getD_some]

/-- R126 (d): every octuple of words is packed, from its own bytes. -/
theorem packWord_bytesOfWords (f : Fin 8 → Word) : packWord (bytesOfWords f) = f := by
  funext j
  simp only [packWord, paddedByte_bytesOfWords, le64_byteOf]

/-- Settles O50, law by law. -/
theorem packLaws : Obligations.PackLaws :=
  ⟨fun _ y hx => packWord_take_append y hx, fun x _ => packWord_append_zeros x _, fun x n _ => packWord_append_zeros x n,
    fun _ _ hx hy h => eq_of_packWord_eq hx hy h, fun f => ⟨_, bytesOfWords_length f, packWord_bytesOfWords f⟩⟩

/-! ### What the micro-ops of format N have in common -/

/-- A word of format N with a bit of 27:0 set is illegal (30_encoding.md R74 (2)). -/
theorem step_of_mbz_fetch (hf : s.fetches w) (hlo : 3 ≤ (opField w).toNat) (hhi : (opField w).toNat ≤ 9)
    (hbad : w.extractLsb' 0 28 ≠ 0) : step s = .next s.takeIllegalUop :=
  step_of_illegal_fetch hf (decode_illegal_iff.mpr (.inr (.inl ⟨hlo, hhi, hbad⟩)))

/-- `INIT` reads what `MROT` reads, so the spec refuses it in the same states (10_state.md R32, R36). -/
theorem specRefuses_init : specRefuses .init s ↔ ∃ j : Fin 8, s.m[j].isHeld = false :=
  specRefuses_mrot

/-- The spec refuses `FOLD` exactly when a word of `V` holds no value (10_state.md R32, R36). -/
theorem specRefuses_fold : specRefuses .fold s ↔ ∃ k : Fin 16, s.v[k].isHeld = false := by
  simp [specRefuses, reads, State.holds]

/-- A micro-op that the spec refuses only for an element of `file` is readable when the file is held. -/
theorem readable_of_allHeld {n : Nat} {file : Vector (Reg Word) n}
    (hr : specRefuses i s ↔ ∃ k : Fin n, file[k].isHeld = false) (h : allHeld file) : s.readable i = true := by
  rw [← not_specRefuses_iff, hr]
  rintro ⟨k, hk⟩
  exact Bool.false_ne_true (hk.symm.trans (h k))

/-- An element of a file written whole with values holds the value of its position. -/
theorem tabulate_written_of_eq {α : Type} {n : Nat} {f : Fin n → α} {k : Nat} {hk : k < n} {x : α}
    (hx : f ⟨k, hk⟩ = x) : (tabulate fun j => Reg.written true (f j))[k] = .held x := by
  simp [hx]

/-! ### The micro-op `PACK` (R125) -/

theorem exec_pack : exec .pack s = .next (s.loadM true (packWord s.din)).advance := rfl

/-- Settles O12: the words by `packWord_toNat`, the example by running the packing on its three bytes. -/
theorem packFormsMessageBlock : Obligations.PackFormsMessageBlock := by
  refine ⟨fun s => ⟨_, exec_pack, fun j => ⟨packWord s.din j, tabulate_getElem_fin _ j, packWord_toNat s.din j⟩, rfl⟩,
    rfl, fun s w hf hop hbad => step_of_mbz_fetch hf (by simp [hop]) (by simp [hop]) hbad,
    fun s => not_specRefuses_iff.mpr s.readable_pack, fun s hdin => ⟨_, exec_pack, ?_⟩⟩
  rw [State.advance_m, State.loadM_m, hdin]
  decide

/-! ### The micro-op `INIT` (R127) -/

/-- `INIT` from an ordering that holds values. -/
theorem exec_init_held {mb : Fin 8 → Word} (h : ∀ j : Fin 8, s.m[j] = .held (mb j)) :
    exec .init s = .next (s.loadV true (initWord s.cfg.iv mb)).advance := by
  have hok : s.readable .init = true := readable_of_allHeld specRefuses_init (allHeld_iff.mpr ⟨mb, h⟩)
  have hread : s.readM = mb := funext fun j => s.readM_held (h j)
  simp only [exec, execInit, hok, hread]

section InitWord

variable (iv : Vector Word 4) (mb : Fin 8 → Word)

theorem initWord_first (k : Fin 4) : initWord iv mb ⟨k.val, by omega⟩ = iv[k] := by
  have hlt : k.val < 8 := by omega
  simp [initWord, hlt, Nat.mod_eq_of_lt k.isLt]

theorem initWord_second (k : Fin 4) : initWord iv mb ⟨4 + k.val, by omega⟩ = iv[k] := by
  have hlt : 4 + k.val < 8 := by omega
  simp [initWord, hlt, Nat.mod_eq_of_lt k.isLt]

theorem initWord_message (j : Fin 8) : initWord iv mb ⟨8 + j.val, by omega⟩ = mb j := by
  simp [initWord]

end InitWord

/-- The message words of the worked example of R127: the packed `"abc"`. -/
def initExampleWords : Fin 8 → Word := ![0x636261, 0, 0, 0, 0, 0, 0, 0]

/-- Settles O13: the effect by `exec_init_held` and the words of `initWord`. -/
theorem initBuildsWorkingState : Obligations.InitBuildsWorkingState := by
  refine ⟨fun s mb h => ⟨_, exec_init_held h, fun k =>
      ⟨tabulate_written_of_eq (initWord_first _ mb k), tabulate_written_of_eq (initWord_second _ mb k)⟩,
      fun j => tabulate_written_of_eq (initWord_message _ mb j), rfl⟩, rfl,
    fun s w hf hop hbad => step_of_mbz_fetch hf (by simp [hop]) (by simp [hop]) hbad, fun s => specRefuses_init,
    fun s hiv hm => ?_⟩
  have hmb : ∀ j : Fin 8, s.m[j] = .held (initExampleWords j) := by rw [hm]; decide
  refine ⟨_, exec_init_held hmb, ?_⟩
  rw [State.advance_v, State.loadV_v, hiv]
  decide

/-! ### The micro-op `FOLD` (R129, R130) -/

/-- `FOLD` from a working state that holds values. -/
theorem exec_fold_held {v : Fin 16 → Word} (h : ∀ k : Fin 16, s.v[k] = .held (v k)) :
    exec .fold s = .next (s.loadCH true (foldWord s.cfg v)).advance := by
  have hok : s.readable .fold = true := readable_of_allHeld specRefuses_fold (allHeld_iff.mpr ⟨v, h⟩)
  have hread : s.readV = v := funext fun k => s.readV_held (h k)
  simp only [exec, execFold, hok, hread]

section FoldWord

variable {cfg : Config} (v : Fin 16 → Word) (k : Fin 4)

theorem foldWord_first : foldWord cfg v ⟨k.val, by omega⟩ = v ⟨k.val, by omega⟩ ^^^ v ⟨8 + k.val, by omega⟩ := by
  simp [foldWord]

/-- The second half under the reading the spec takes (R129). -/
theorem foldWord_second (hseed : cfg.foldUsesSeed = false) :
    foldWord cfg v ⟨4 + k.val, by omega⟩ = v ⟨4 + k.val, by omega⟩ ^^^ v ⟨k.val, by omega⟩ := by
  simp [foldWord, hseed]

/-- The second half under the reading behind the optional switch (R130). -/
theorem foldWord_second_seed (hseed : cfg.foldUsesSeed = true) :
    foldWord cfg v ⟨4 + k.val, by omega⟩ = v ⟨4 + k.val, by omega⟩ ^^^ cfg.iv[k] := by
  simp [foldWord, hseed]

end FoldWord

/-- The `V[i]` of the two halves cancel. -/
theorem fold_halves_xor (a b c : Word) : (a ^^^ b) ^^^ (c ^^^ a) = b ^^^ c := by
  rw [BitVec.xor_comm a b, BitVec.xor_comm c a, BitVec.xor_assoc, ← BitVec.xor_assoc a, BitVec.xor_self, BitVec.zero_xor]

/-- Settles O14: the effect by `exec_fold_held` and the words of `foldWord`. -/
theorem foldFormsChainingOutput : Obligations.FoldFormsChainingOutput := by
  refine ⟨fun s v hseed h => ⟨_, exec_fold_held h,
      fun k => ⟨tabulate_written_of_eq (foldWord_first v k), tabulate_written_of_eq (foldWord_second v k hseed)⟩,
      fun k => ⟨_, _, tabulate_written_of_eq (foldWord_first v k), tabulate_written_of_eq (foldWord_second v k hseed),
        fold_halves_xor _ _ _⟩, rfl⟩, rfl,
    fun s w hf hop hbad => step_of_mbz_fetch hf (by simp [hop]) (by simp [hop]) hbad, fun s => specRefuses_fold,
    fun s hseed hheld h0 h4 h8 => ?_⟩
  obtain ⟨v, hv⟩ := allHeld_iff.mp hheld
  have hv0 : v 0 = 0x9DD4E1CBAE3D9812#64 := Reg.held.inj ((hv 0).symm.trans h0)
  have hv4 : v 4 = 0x1FB4DAB8973B9494#64 := Reg.held.inj ((hv 4).symm.trans h4)
  have hv8 : v 8 = 0xAB3FE39BB61CBFBE#64 := Reg.held.inj ((hv 8).symm.trans h8)
  have hfirst : v 0 ^^^ v 8 = 0x36EB0250182127AC#64 := by rw [hv0, hv8]; decide
  have hsecond : v 4 ^^^ v 0 = 0x82603B7339060C86#64 := by rw [hv4, hv0]; decide
  exact ⟨_, exec_fold_held hv, tabulate_written_of_eq ((foldWord_first v 0).trans hfirst),
    tabulate_written_of_eq ((foldWord_second v 0 hseed).trans hsecond)⟩

/-- Settles O15, by the words of `foldWord` with the switch set. -/
theorem foldUnderTheSeedReading : Obligations.FoldUnderTheSeedReading :=
  fun _ v hseed h => ⟨_, exec_fold_held h,
    fun k => ⟨tabulate_written_of_eq (foldWord_first v k), tabulate_written_of_eq (foldWord_second_seed v k hseed)⟩, rfl⟩

end Sys2Proof.Machine

/-! # Proofs: the digest finalizer (44_finalizer.md)

`FINAL` and `SER` on files that hold values are equations between states; the words and bytes they write are given position
by position. After `FOLD` the word `FINAL` writes is `finalWord` of `foldWord`, where the `V[i]` of the two halves cancel
(R141). -/

namespace Sys2Proof.Machine

variable {s : State}

/-! ### The micro-op `FINAL` (R140) -/

/-- The spec refuses `FINAL` exactly when a word of `CH` holds no value (10_state.md R32, R36). -/
theorem specRefuses_final : specRefuses .final s ↔ ∃ k : Fin 8, s.ch[k].isHeld = false := by
  simp [specRefuses, reads, State.holds]

/-- `FINAL` from a chaining output that holds values. -/
theorem exec_final_held {ch : Fin 8 → Word} (h : ∀ k : Fin 8, s.ch[k] = .held (ch k)) :
    exec .final s = .next (s.loadOUT true (finalWord ch)).advance := by
  have hok : s.readable .final = true := readable_of_allHeld specRefuses_final (allHeld_iff.mpr ⟨ch, h⟩)
  have hread : s.readCH = ch := funext fun k => s.readCH_held (h k)
  simp only [exec, execFinal, hok, hread]

/-- Equal halves of the chaining output give zero. -/
theorem finalWord_of_eq {ch : Fin 8 → Word} {k : Fin 4} (h : ch ⟨k.val, by omega⟩ = ch ⟨k.val + 4, by omega⟩) :
    finalWord ch k = 0 := by
  rw [finalWord, h]
  exact BitVec.xor_self

/-- Settles O16: the effect by `exec_final_held`, the illegal words by R74 (2). -/
theorem finalFormsOutputWords : Obligations.FinalFormsOutputWords := by
  refine ⟨fun s ch h => ⟨_, exec_final_held h,
      fun k => ⟨tabulate_written_of_eq rfl, fun heq => tabulate_written_of_eq (finalWord_of_eq heq)⟩, rfl⟩, rfl,
    fun s w hf hop hbad => step_of_mbz_fetch hf (by simp [hop]) (by simp [hop]) hbad, fun s => specRefuses_final,
    fun s hheld h0 h4 => ?_⟩
  obtain ⟨ch, hch⟩ := allHeld_iff.mp hheld
  have hch0 : ch 0 = 0x36EB0250182127AC#64 := Reg.held.inj ((hch 0).symm.trans h0)
  have hch4 : ch 4 = 0x82603B7339060C86#64 := Reg.held.inj ((hch 4).symm.trans h4)
  have hout : ch 0 ^^^ ch 4 = 0xB48B392321272B2A#64 := by rw [hch0, hch4]; decide
  exact ⟨_, exec_final_held hch, tabulate_written_of_eq hout⟩

/-! ### `FINAL` after `FOLD` (R141) -/

/-- The output words of a folded working state, under the reading the spec takes. -/
theorem finalWord_foldWord {cfg : Config} (hseed : cfg.foldUsesSeed = false) (v : Fin 16 → Word) (k : Fin 4) :
    finalWord (foldWord cfg v) k = v ⟨4 + k.val, by omega⟩ ^^^ v ⟨8 + k.val, by omega⟩ := by
  have hsecond : (⟨k.val + 4, by omega⟩ : Fin 8) = ⟨4 + k.val, by omega⟩ := Fin.ext (Nat.add_comm k.val 4)
  rw [finalWord, hsecond, foldWord_first, foldWord_second v k hseed, fold_halves_xor, BitVec.xor_comm]

/-- `FOLD` and then `FINAL` from a working state that holds values. -/
theorem execAll_fold_final {v : Fin 16 → Word} (h : ∀ k : Fin 16, s.v[k] = .held (v k)) :
    execAll [.fold, .final] s = .next
      ((s.loadCH true (foldWord s.cfg v)).advance.loadOUT true (finalWord (foldWord s.cfg v))).advance := by
  have hch (k : Fin 8) : (s.loadCH true (foldWord s.cfg v)).advance.ch[k] = .held (foldWord s.cfg v k) :=
    tabulate_written_of_eq rfl
  simp only [execAll, exec_fold_held h, exec_final_held hch]

/-- Settles O52, by the words of `finalWord` after `foldWord`. -/
theorem finalAfterFold : Obligations.FinalAfterFold := by
  intro s v hseed h
  refine ⟨_, execAll_fold_final h, fun k => tabulate_written_of_eq (finalWord_foldWord hseed v k), ?_⟩
  have hupc : s.upc + 2 = s.upc + 1 + 1 := (BitVec.add_assoc s.upc 1 1).symm
  rw [hupc]
  rfl

/-! ### The micro-op `SER` (R142) -/

/-- The spec refuses `SER` exactly when an output word holds no value (10_state.md R32, R36). -/
theorem specRefuses_ser : specRefuses .ser s ↔ ∃ k : Fin 4, s.out[k].isHeld = false := by
  simp [specRefuses, reads, State.holds]

/-- `SER` from output words that hold values. -/
theorem exec_ser_held {out : Fin 4 → Word} (h : ∀ k : Fin 4, s.out[k] = .held (out k)) :
    exec .ser s = .next (s.loadDG true (digestByte out)).advance := by
  have hok : s.readable .ser = true := readable_of_allHeld specRefuses_ser (allHeld_iff.mpr ⟨out, h⟩)
  have hread : s.readOUT = out := funext fun k => s.readOUT_held (h k)
  simp only [exec, execSer, hok, hread]

/-- The digest byte at offset `8j + k` is byte `k` of output word `j`. -/
theorem digestByte_offset (out : Fin 4 → Word) (j : Fin 4) (k : Fin 8) :
    digestByte out ⟨8 * j.val + k.val, by omega⟩ = byteOf (out j) k := by
  have hword : (8 * j.val + k.val) / 8 = j.val := by omega
  have hbyte : (8 * j.val + k.val) % 8 = k.val := by omega
  simp only [digestByte, hword, hbyte]

/-- The first eight digest bytes are those of `OUT[0]`, the lowest first. -/
theorem digest_first_eight (out : Fin 4 → Word) :
    ((List.range 8).map fun k => (tabulate fun j => Reg.written true (digestByte out j))[k]?) =
      (List.range 8).map fun k => some (.held (byteOf (out 0) k)) := by
  refine List.map_congr_left fun k hk => ?_
  have hk8 : k < 8 := List.mem_range.mp hk
  have hbyte : digestByte out ⟨k, by omega⟩ = byteOf (out 0) k := by simpa using digestByte_offset out 0 ⟨k, hk8⟩
  rw [Vector.getElem?_eq_getElem (by omega), tabulate_written_of_eq hbyte]

/-- Settles O17: the bytes by `digestByte_offset` and `byteOf_toNat`, the illegal words by R74 (2). -/
theorem serSerialisesDigest : Obligations.SerSerialisesDigest := by
  refine ⟨fun s out h => ⟨_, exec_ser_held h,
      fun j k => ⟨_, tabulate_written_of_eq (digestByte_offset out j k), byteOf_toNat (out j) k⟩, rfl⟩, rfl,
    fun s w hf hop hbad => step_of_mbz_fetch hf (by simp [hop]) (by simp [hop]) hbad, fun s => specRefuses_ser,
    fun s hheld h0 => ?_⟩
  obtain ⟨out, hout⟩ := allHeld_iff.mp hheld
  have hout0 : out 0 = 0xB48B392321272B2A#64 := Reg.held.inj ((hout 0).symm.trans h0)
  refine ⟨_, exec_ser_held hout, (digest_first_eight out).trans ?_⟩
  rw [hout0]
  decide

end Sys2Proof.Machine

/-! # Proofs: the sequencer (45_sequencer.md)

`HASH_PROG` by index: `filledFrom` gives for each element the index from which a call of it finds a value there. No word of
it reads an element before that, and the word just before it writes it, so the hardware's invariant is kept
(`State.HashInv.result_of_due`). A run of a call is the micro-ops of the pseudo-op `HASH` one after another
(`State.AtIndex.run_eq_execAll`), and those compute `hashFn` (`execAll_hashOps`). -/

namespace Sys2Proof.Machine

variable {s t : State} {i : Instr}

/-! ### `HASH_PROG`, word by word (R158) -/

/-- Settles O37, by running the encoder and the decoder on the fixed program. -/
theorem hashProgSpellsHash : Obligations.HashProgSpellsHash :=
  ⟨hashProg_length, by decide, by decide⟩

/-- The index of `HASH_PROG` from which a call finds a value in an element (R159). -/
def filledFrom : Elem → Nat
  | .m _ => 1
  | .v _ => 2
  | .ch _ => 47
  | .out _ => 48

/-- No word of `HASH_PROG` reads an element before the call has put a value there. -/
theorem filledFrom_le_of_reads : ∀ k : Fin 50, ∀ e ∈ reads hashOps[k], filledFrom e ≤ k.val := by decide

/-- The last word before that index writes the element. -/
theorem writes_hashOps_before_filledFrom {e : Elem} {k : Nat} (hk : k < 50) (he : filledFrom e = k + 1) :
    writes (hashOps[k]'hk) e = true := by
  cases e <;> cases he <;> rfl

theorem hashOps_eq_halt_iff : ∀ k : Fin 50, hashOps[k] = .halt ↔ k = 49 := by decide

/-- With `HASH_PROG` in the ROM the micro-op due is that of `HASH` at `UPC`. -/
theorem State.due?_hashProg (hrom : s.cfg.uprog = hashProg) (hu : s.upc.toNat < 50) :
    s.due? = some (hashOps[s.upc.toNat]'hu) :=
  State.InHashCall.due? (s := { s with status := .busy, host := [] }) ⟨hrom, rfl, .inr ⟨rfl, hu⟩⟩ hu

/-! ### The hardware's invariant (R159) -/

/-- What an element holds after a micro-op whose sources all hold values. -/
theorem result_holds (hw : i.wellFormed = true) (hr : s.readable i = true) (e : Elem) :
    (result i s).holds e = (writes i e || s.holds e) := by
  rw [State.holds_eq, State.holds_eq, result_element hw, hr]
  cases writes i e <;> rfl

/-- `UPC` advances without wrapping while it is below 63 (10_state.md R28, log 12). -/
theorem result_upc_toNat (hw : i.wellFormed = true) (hi : i ≠ .halt) (hu : s.upc.toNat < 63) :
    (result i s).upc.toNat = s.upc.toNat + 1 := by
  rw [result_upc hw hi]
  bv_omega

namespace State.HashInv

theorem due? (h : s.HashInv) : s.due? = some (hashOps[s.upc.toNat]'h.upc_lt) := State.due?_hashProg h.rom h.upc_lt

/-- In a call every element holds a value from its index on. -/
theorem holds (h : s.HashInv) (hs : s.status ≠ .idle) {e : Elem} (he : filledFrom e ≤ s.upc.toNat) :
    s.holds e = true := by
  cases e with
  | v k => exact h.v_held hs he k
  | m k => exact h.m_held hs he k
  | ch k => exact h.ch_held hs he k
  | out k => exact h.out_held hs he k

/-- No micro-op of a call reads an element without a value (R159). -/
theorem readable (h : s.HashInv) (hs : s.status ≠ .idle) (hi : s.due? = some i) : s.readable i = true := by
  obtain rfl : hashOps[s.upc.toNat]'h.upc_lt = i := Option.some.inj (h.due?.symm.trans hi)
  exact s.readable_iff.mpr fun e he => h.holds hs (filledFrom_le_of_reads ⟨_, h.upc_lt⟩ e he)

theorem due_eq_halt_iff (h : s.HashInv) (hi : s.due? = some i) : i = .halt ↔ s.upc.toNat = 49 := by
  obtain rfl : hashOps[s.upc.toNat]'h.upc_lt = i := Option.some.inj (h.due?.symm.trans hi)
  exact (hashOps_eq_halt_iff ⟨_, h.upc_lt⟩).trans Fin.ext_iff

/-- After the micro-op due, the elements of the next index hold values: those of this index held them already, and the
others are written by it. -/
theorem result_holds_next (h : s.HashInv) (hs : s.status ≠ .idle) (hi : s.due? = some i) {e : Elem}
    (he : filledFrom e ≤ s.upc.toNat + 1) : (result i s).holds e = true := by
  rw [result_holds (State.due?_wellFormed hi) (h.readable hs hi), Bool.or_eq_true]
  obtain hle | hnext := Nat.le_or_eq_of_le_succ he
  · exact .inr (h.holds hs hle)
  · obtain rfl : hashOps[s.upc.toNat]'h.upc_lt = i := Option.some.inj (h.due?.symm.trans hi)
    exact .inl (writes_hashOps_before_filledFrom h.upc_lt hnext)

/-- The digest is written by the word at index 48, `SER`. -/
theorem result_dg_held (h : s.HashInv) (hs : s.status ≠ .idle) (hi : s.due? = some i) (hu : s.upc.toNat = 48) :
    allHeld (result i s).dg := by
  obtain rfl : .ser = i := by
    have hdue := h.due?
    simp only [hu] at hdue
    exact Option.some.inj (hdue.symm.trans hi)
  rw [result_dg, if_pos rfl, h.readable hs hi]
  exact allHeld_tabulate _

theorem withHost (h : s.HashInv) (rest : List HostMove) : ({ s with host := rest } : State).HashInv := { h with }

/-- Before the first word of a call nothing is asked of the files. -/
theorem cleared (h : s.HashInv) {status : Status} (herr : status ≠ .error) (hdone : status ≠ .done) (din : List Byte) :
    ({ s.clearDatapath with din := din, ecause := .none, upc := 0, status := status } : State).HashInv where
  rom := h.rom
  noError := herr
  noCause := rfl
  upc_lt := Nat.zero_lt_succ 49
  done_at hd := absurd hd hdone
  m_held _ hu := absurd hu (Nat.not_succ_le_zero _)
  v_held _ hu := absurd hu (Nat.not_succ_le_zero _)
  ch_held _ hu := absurd hu (Nat.not_succ_le_zero _)
  out_held _ hu := absurd hu (Nat.not_succ_le_zero _)
  dg_held _ hu := absurd hu (Nat.not_succ_le_zero _)

theorem hostStart (h : s.HashInv) (data : List Byte) : (s.hostStart data).HashInv := by
  obtain hx | hx := s.hostStart_cases data <;> rw [hx]
  · exact h.cleared (by decide) (by decide) data
  · exact h

theorem hostReset (h : s.HashInv) : s.hostReset.HashInv := h.cleared (by decide) (by decide) []

/-- `HALT` stands at index 49. -/
theorem setDone (h : s.HashInv) (hb : s.status = .busy) (hu : s.upc.toNat = 49) : (s.setStatus .done).HashInv :=
  have hs : s.status ≠ .idle := by simp [hb]
  { h with
    noError := by simp
    done_at := fun _ => BitVec.eq_of_toNat_eq hu
    m_held := fun _ => h.m_held hs
    v_held := fun _ => h.v_held hs
    ch_held := fun _ => h.ch_held hs
    out_held := fun _ => h.out_held hs
    dg_held := fun _ => h.dg_held hs }

/-- The micro-op due ends the call at index 49, and otherwise leads to the next index with its elements written. -/
theorem result_of_due (h : s.HashInv) (hb : s.status = .busy) (hi : s.due? = some i) : (result i s).HashInv := by
  have hs : s.status ≠ .idle := by simp [hb]
  by_cases hhalt : i = .halt
  · subst hhalt
    exact h.setDone hb ((h.due_eq_halt_iff hi).mp rfl)
  · have hlt : s.upc.toNat < 49 :=
      Nat.lt_of_le_of_ne (Nat.le_of_lt_succ h.upc_lt) (mt (h.due_eq_halt_iff hi).mpr hhalt)
    have hupc : (result i s).upc.toNat = s.upc.toNat + 1 :=
      result_upc_toNat (State.due?_wellFormed hi) hhalt (by omega)
    have hbusy : (result i s).status = .busy := (result_status hhalt).trans hb
    have hfilled {e : Elem} (he : filledFrom e ≤ (result i s).upc.toNat) : (result i s).holds e = true :=
      h.result_holds_next hs hi (hupc ▸ he)
    exact {
      rom := by rw [result_cfg, h.rom]
      noError := by simp [hbusy]
      noCause := (result_ecause i s).trans h.noCause
      upc_lt := by omega
      done_at := by simp [hbusy]
      m_held := fun _ he j => hfilled (e := .m j) he
      v_held := fun _ he k => hfilled (e := .v k) he
      ch_held := fun _ he k => hfilled (e := .ch k) he
      out_held := fun _ he k => hfilled (e := .out k) he
      dg_held := fun _ he => h.result_dg_held hs hi (by omega) }

end State.HashInv

/-- Settles O34: a legal micro-op is always due, and it and the host's moves keep the invariant. -/
theorem stepKeepsHashProgInvariant : Obligations.StepKeepsHashProgInvariant := by
  intro s t hs h
  exact step_keeps
    (illegal := fun _ _ hd hu => absurd (hu.due?.symm.trans hd) (Option.some_ne_none _))
    (due := fun _ _ hb hi hu => hu.result_of_due hb hi)
    (host := fun _ rest hu => hu.withHost rest)
    (start := fun _ data hu => hu.hostStart data)
    (reset := fun _ hu => hu.hostReset) hs h

/-! ### The sequencer's step (R155) -/

theorem coreStep_of_due (hb : s.status = .busy) (hi : s.due? = some i) : coreStep s = exec i s :=
  (coreStep_busy hb).trans (sequencerStep_due hi)

/-- In `BUSY` with a host that does nothing, a legal micro-op due leaves its result. -/
theorem step_of_due (hb : s.status = .busy) (hh : s.host = []) (hi : s.due? = some i) : step s = .next (result i s) := by
  rw [step_of_quiet hh, coreStep_of_due hb hi, exec_legal (State.due?_wellFormed hi)]

/-- The same with no legal micro-op due: `IllegalUop` is taken (60_exceptions.md R173). -/
theorem step_of_none_due (hb : s.status = .busy) (hh : s.host = []) (hd : s.due? = none) :
    step s = .next s.takeIllegalUop := by
  rw [step_of_quiet hh, coreStep_busy hb, sequencerStep_illegal hd]

/-- Settles O36: what the call reads holds values, and the invariant after the step says there is no exception. -/
theorem hashProgNeverFaultsOrRefuses : Obligations.HashProgNeverFaultsOrRefuses := by
  constructor
  · intro s h hb hh
    have hnext := h.result_of_due hb h.due?
    exact ⟨_, _, h.due?, not_specRefuses_iff.mpr (h.readable (by simp [hb]) h.due?), step_of_due hb hh h.due?,
      hnext.noError, hnext.noCause⟩
  · intro s h hdone
    have hdg : allHeld s.dg := h.dg_held (by simp [hdone]) (by simp [h.done_at hdone])
    obtain ⟨d, hd⟩ := allHeld_iff.mp hdg
    exact ⟨tabulate d, (State.hostReadDG_eq_some_iff _).mpr ⟨hdone, fun k => by rw [hd k, tabulate_getElem_fin]⟩⟩

/-- Settles O5: the fetch, then the micro-op; a `pass` is off the list before it. -/
theorem stepRunsDecodedInstruction : Obligations.StepRunsDecodedInstruction := by
  intro s w i hb hw hd
  refine ⟨fun hh => step_of_legal_fetch ⟨hb, hh, hw⟩ hd, fun rest hh => ?_⟩
  exact (step_of_pass hh).trans (coreStep_of_due (s := { s with host := rest }) hb (State.due?_of_word hw hd))

/-- What is written without a value in every source holds none. -/
theorem Reg.written_false_ne_held {α : Type} (x y : α) : Reg.written false x ≠ .held y := nofun

/-- A micro-op whose sources do not all hold values puts no value anywhere (10_state.md R32, log 1). -/
theorem result_held_of_not_readable (hw : i.wellFormed = true) (hr : s.readable i = false) {e : Elem} {x : Word}
    (he : (result i s).element e = .held x) : s.element e = .held x := by
  rw [result_element hw, hr] at he
  split at he
  · exact absurd he (Reg.written_false_ne_held _ _)
  · exact he

theorem result_dg_held_of_not_readable (hr : s.readable i = false) {k : Fin 32} {b : Byte}
    (hk : (result i s).dg[k] = .held b) : s.dg[k] = .held b := by
  rw [result_dg] at hk
  split at hk
  · next hser =>
    subst hser
    rw [tabulate_getElem_fin, hr] at hk
    exact absurd hk (Reg.written_false_ne_held _ _)
  · exact hk

/-- Settles O8: the fault comes first, and otherwise the step leaves the micro-op's result, which holds a new value only
where every source held one. -/
theorem stepAndTheSpecsRefusal : Obligations.StepAndTheSpecsRefusal := by
  refine ⟨fun s hb hh hd => step_of_none_due hb hh hd,
    fun s i hb hh hi _ => ⟨_, step_of_due hb hh hi, exec_legal (State.due?_wellFormed hi)⟩, fun s i hb hh hi href => ?_⟩
  have hr : s.readable i = false := Bool.eq_false_iff.mpr fun h => not_specRefuses_iff.mpr h href
  have hw := State.due?_wellFormed hi
  exact ⟨_, step_of_due hb hh hi, exec_legal hw, fun _ _ => result_held_of_not_readable hw hr,
    fun _ _ => result_dg_held_of_not_readable hr⟩

/-! ### Where the sequencer has no step (R155, R157; 60_exceptions.md R172) -/

/-- `IDLE` and `DONE` are resting states (log 8). -/
theorem coreStep_resting (h : s.status = .idle ∨ s.status = .done) : coreStep s = .next s := by
  obtain h | h := h <;> simp only [coreStep, State.restStep, h]

/-- `ERROR` is stuck when the host has no move left (log 9). -/
theorem coreStep_stuck (he : s.status = .error) (hh : s.host = []) : coreStep s = .fault .errorState := by
  simp only [coreStep, State.restStep, he, hh]

/-- `ERROR` waits while the host has moves left (log 9). -/
theorem coreStep_waiting (he : s.status = .error) (hh : s.host ≠ []) : coreStep s = .next s := by
  obtain ⟨move, rest, hh⟩ := List.exists_cons_of_ne_nil hh
  simp only [coreStep, State.restStep, he, hh]

/-- Settles O30: a `pass` is taken off the list, and the core rests, waits or is stuck. -/
theorem restingAndStuckStates : Obligations.RestingAndStuckStates :=
  ⟨fun _ hh hs => (step_of_quiet hh).trans (coreStep_resting hs),
    fun _ hh he => (step_of_quiet hh).trans (coreStep_stuck he hh),
    fun _ _ hh hs => (step_of_pass hh).trans (coreStep_resting hs),
    fun _ _ hh hrest he => (step_of_pass hh).trans (coreStep_waiting he hrest),
    fun _ hh he => (step_of_pass hh).trans (coreStep_stuck he rfl)⟩

/-- A byte of `DG` without a value makes the digest unreadable (20_memory.md R61, log 13). -/
theorem State.hostReadDG_eq_none {k : Fin 32} (hk : s.dg[k].isHeld = false) : s.hostReadDG = none := by
  refine Option.eq_none_iff_forall_ne_some.mpr fun d hd => ?_
  obtain ⟨-, hall⟩ := (State.hostReadDG_eq_some_iff d).mp hd
  rw [hall k] at hk
  cases hk

/-- Settles O18: the effect is `exec`'s, the rest after it that of `DONE`. -/
theorem haltEndsCall : Obligations.HaltEndsCall :=
  ⟨fun _ => rfl, rfl, fun _ _ hf hop hbad => step_of_mbz_fetch hf (by simp [hop]) (by simp [hop]) hbad,
    fun s => (not_specRefuses_iff (s := s) (i := .halt)).mpr rfl,
    fun s hh => (step_of_quiet (s := { s with status := .done }) hh).trans (coreStep_resting (.inr rfl)),
    fun s _ hk => State.hostReadDG_eq_none (s := { s with status := .done }) hk,
    fun _ hf hu => ⟨_, step_of_legal_fetch hf (i := .halt) (by decide), rfl, hu⟩⟩

/-! ### `START` (R152, R153) -/

/-- Settles O25, by the state an accepted `START` leaves. -/
theorem startLatchesAndClears : Obligations.StartLatchesAndClears := by
  intro s data rest hh hs
  have hstep := (step_of_start hh).trans (congrArg _ (State.hostStart_accepted { s with host := rest } data hs))
  exact ⟨_, hstep, rfl, noneHeld_free _, noneHeld_free _, noneHeld_free _, noneHeld_free _, noneHeld_free _,
    rfl, rfl, rfl, rfl, rfl⟩

/-- Settles O26: the move is off the list, and nothing else happens. -/
theorem startIgnoredInBusyAndError : Obligations.StartIgnoredInBusyAndError := by
  intro s data rest hh hs
  exact (step_of_start hh).trans (congrArg _ (State.hostStart_ignored { s with host := rest } data hs))

/-! ### The laws of the hash (R161) -/

/-- The hash depends on its input through the packed words only (R160). -/
theorem hashFn_congr (cfg : Config) {x y : List Byte} (h : packWord x = packWord y) : hashFn cfg x = hashFn cfg y :=
  congrArg (fun mb => finalizeFn (chainFn cfg mb)) h

/-- Settles O51, by the laws of the padding (43_codec_compressor.md R126). -/
theorem hashTruncatesAndPads : Obligations.HashTruncatesAndPads := by
  refine fun cfg => ⟨fun x y hx => hashFn_congr cfg ?_, fun x _ => hashFn_congr cfg (packWord_append_zeros x _).symm⟩
  have hall := packWord_take_append [] hx
  rw [List.append_nil] at hall
  rw [packWord_take_append y hx, hall]

/-! ### Runs end (R156, R162) -/

/-- A run of at most `m` steps ends the call, in `DONE` or in `ERROR`. -/
def EndsWithin (m : Nat) (s : State) : Prop :=
  ∃ k t, k ≤ m ∧ run k s = .next t ∧ (t.status = .done ∨ t.status = .error)

theorem EndsWithin.mono {m n : Nat} (h : EndsWithin m s) (hmn : m ≤ n) : EndsWithin n s := by
  obtain ⟨k, t, hk, hend⟩ := h
  exact ⟨k, t, hk.trans hmn, hend⟩

theorem EndsWithin.of_ended (hs : s.status = .done ∨ s.status = .error) (m : Nat) : EndsWithin m s :=
  ⟨0, s, Nat.zero_le m, rfl, hs⟩

/-- One step before a run that ends. -/
theorem EndsWithin.of_step {m : Nat} (hstep : step s = .next t) (h : EndsWithin m t) : EndsWithin (m + 1) s := by
  obtain ⟨k, u, hk, hrun, hu⟩ := h
  exact ⟨k + 1, u, Nat.succ_le_succ hk, (run_succ k hstep).trans hrun, hu⟩

/-- From `m` words before the end of the ROM, each step but the last advances `UPC`, and the fetch past the end is a
last step. -/
theorem State.Inv.endsWithin (m : Nat) (h : s.Inv) (hb : s.status = .busy) (hh : s.host = [])
    (hm : s.upc.toNat + m = s.cfg.uprog.length) : EndsWithin (m + 1) s := by
  induction m generalizing s with
  | zero =>
    have hd : s.due? = none := Option.eq_none_iff_forall_ne_some.mpr fun i hi =>
      absurd hm (State.upc_lt_of_due? hi).ne
    exact .of_step (step_of_none_due hb hh hd) (.of_ended (.inr rfl) 0)
  | succ m ih =>
    cases hd : s.due? with
    | none => exact .of_step (step_of_none_due hb hh hd) (.of_ended (.inr rfl) _)
    | some i =>
      refine .of_step (step_of_due hb hh hd) ?_
      by_cases hhalt : i = .halt
      · subst hhalt
        exact .of_ended (.inl rfl) _
      · have hle := h.nuop_le
        have hupc : (result i s).upc.toNat = s.upc.toNat + 1 :=
          result_upc_toNat (State.due?_wellFormed hd) hhalt (by omega)
        exact ih (h.result_of_due hb hd) ((result_status hhalt).trans hb) ((result_host i s).trans hh)
          (by rw [hupc, result_cfg]; omega)

/-- Settles O40, from the words that remain at `UPC`. -/
theorem runsOfTheSequencerEnd : Obligations.RunsOfTheSequencerEnd := by
  intro s h hb hh
  exact (h.endsWithin _ hb hh (Nat.add_sub_of_le h.upc_le)).mono (Nat.succ_le_succ (Nat.sub_le ..))

/-! ### The micro-ops of `HASH` compute the hash (R158, R160) -/

/-- `s` after the micro-ops of `HASH`: the working state permuted from the packed input, the ordering rotated four times,
the chaining output, the output words and the digest they give, and the call halted 49 words on. -/
def State.hashed (s : State) : State :=
  let mb := packWord s.din
  let ch := chainFn s.cfg mb
  ((((s.fill (permuteFn mb (tabulate (initWord s.cfg.iv mb))) (fun j => mb (j + 4)) (s.upc + 49)).loadCH true ch).loadOUT
    true (finalWord ch)).loadDG true (digestByte (finalWord ch))).setStatus .done

/-- The micro-ops of `HASH` before and after `PERMUTE`. -/
theorem hashOps_eq : hashOps = [.pack, .init] ++ (permuteOps ++ [.fold, .final, .ser, .halt]) := by
  simp only [hashOps, compressOps, finalizeOps, List.append_assoc, List.cons_append, List.nil_append]

/-- `PACK` and `INIT` fill `M` and `V` whatever they held. -/
theorem execAll_pack_init (s : State) :
    execAll [.pack, .init] s = .next
      (s.fill (tabulate (initWord s.cfg.iv (packWord s.din))) (packWord s.din) (s.upc + 2)) := by
  have hm (j : Fin 8) : (s.loadM true (packWord s.din)).advance.m[j] = .held (packWord s.din j) :=
    tabulate_getElem_fin _ j
  have hupc : s.upc + 2 = s.upc + 1 + 1 := (BitVec.add_assoc s.upc 1 1).symm
  simp only [execAll, exec_pack, exec_init_held hm, State.fill, hupc, tabulate_getElem_fin]
  rfl

/-- The end of a call, from filled files. -/
theorem execAll_fold_to_halt (w : Vector Word 16) (mb : Fin 8 → Word) (u : BitVec 6) :
    execAll [.fold, .final, .ser, .halt] (s.fill w mb u) = .next
      (((((s.fill w mb (u + 3)).loadCH true (foldWord s.cfg fun k => w[k])).loadOUT true
        (finalWord (foldWord s.cfg fun k => w[k]))).loadDG true
        (digestByte (finalWord (foldWord s.cfg fun k => w[k])))).setStatus .done) := by
  have hupc : u + 3 = u + 1 + 1 + 1 := by simp only [BitVec.add_assoc]; rfl
  refine (execAll_append [.fold, .final] [.ser, .halt] (execAll_fold_final (State.fill_v w mb u))).trans ?_
  simp only [execAll]
  rw [exec_ser_held (out := finalWord (foldWord s.cfg fun k => w[k])) fun k => tabulate_getElem_fin _ k, hupc]
  rfl

theorem execAll_hashOps (s : State) : execAll hashOps s = .next s.hashed := by
  have hupc : s.upc + 2 + 44 + 3 = s.upc + 49 := by simp only [BitVec.add_assoc]; rfl
  rw [hashOps_eq, execAll_append _ _ (execAll_pack_init s), execAll_append _ _ (execAll_permuteOps ..),
    execAll_fold_to_halt, hupc]
  rfl

/-- The host reads the hash from the state after `HASH`. -/
theorem State.hostReadDG_hashed (s : State) : s.hashed.hostReadDG = some (hashFn s.cfg s.din) :=
  (State.hostReadDG_eq_some_iff _).mpr ⟨rfl, fun k => by
    refine (tabulate_getElem_fin _ k).trans ?_
    rw [hashFn, finalizeFn, tabulate_getElem_fin]
    rfl⟩

/-! ### A call of `HASH_PROG`, index by index (R159) -/

/-- A call of `HASH_PROG` in progress with the word at index `k` due. -/
structure State.AtIndex (k : Nat) (s : State) : Prop where
  call : s.InHashCall
  busy : s.status = .busy
  upc : s.upc.toNat = k

namespace State.AtIndex

variable {k n : Nat}

theorem due? (h : s.AtIndex k) (hk : k < 50) : s.due? = some (hashOps[k]'hk) := by
  obtain ⟨hcall, -, rfl⟩ := h
  exact hcall.due? hk

theorem step (h : s.AtIndex k) (hk : k < 50) : step s = .next (Machine.result (hashOps[k]'hk) s) :=
  step_of_due h.busy h.call.quiet (h.due? hk)

/-- Every word but the last leads to the next index. -/
theorem result (h : s.AtIndex k) (hk : k < 49) :
    (Machine.result (hashOps[k]'(Nat.lt_succ_of_lt hk)) s).AtIndex (k + 1) := by
  have hk50 : k < 50 := Nat.lt_succ_of_lt hk
  have hhalt : hashOps[k]'hk50 ≠ .halt := fun hi =>
    hk.ne (Fin.ext_iff.mp ((hashOps_eq_halt_iff ⟨k, hk50⟩).mp hi))
  obtain ⟨t, ht, hcall⟩ := h.call.step
  obtain rfl := Host.Outcome.next.inj ((h.step hk50).symm.trans ht)
  have hu : s.upc.toNat < 63 := by rw [h.upc]; omega
  exact ⟨hcall, (result_status hhalt).trans h.busy,
    (result_upc_toNat (State.due?_wellFormed (h.due? hk50)) hhalt hu).trans (congrArg (· + 1) h.upc)⟩

/-- A run within a call is at the index it has advanced to. -/
theorem run (h : s.AtIndex n) (hk : n + k < 50) : ∃ t, run k s = .next t ∧ t.AtIndex (n + k) := by
  induction k generalizing s n with
  | zero => exact ⟨s, rfl, h⟩
  | succ k ih =>
    rw [run_succ k (h.step (by omega)), ← Nat.succ_add_eq_add_succ]
    exact ih (h.result (by omega)) (by omega)

/-- A run within a call executes the micro-ops of `HASH` from its index on. -/
theorem run_eq_execAll (h : s.AtIndex n) (hk : n + k ≤ 50) :
    Machine.run k s = execAll ((hashOps.drop n).take k) s := by
  induction k generalizing s n with
  | zero => rfl
  | succ k ih =>
    have hn : n < 50 := by omega
    have hexec := exec_legal (s := s) (State.due?_wellFormed (h.due? hn))
    rw [run_succ k (h.step hn), List.drop_eq_getElem_cons (i := n) (l := hashOps) hn, List.take_succ_cons]
    simp only [execAll, hexec]
    obtain rfl | hpos := Nat.eq_zero_or_pos k
    · rfl
    · exact ih (h.result (by omega)) (by omega)

/-- An accepted `START` leads to index 0. -/
theorem of_hostStart (hrom : s.cfg.uprog = hashProg) (hh : s.host = []) (hs : s.status = .idle ∨ s.status = .done)
    (data : List Byte) : (s.hostStart data).AtIndex 0 := by
  have hstart := s.hostStart_accepted data hs
  exact ⟨.of_hostStart hrom hh hs data, by rw [hstart], by rw [hstart]; rfl⟩

/-- A whole call runs the 50 micro-ops of `HASH`. -/
theorem run_to_hashed (h : s.AtIndex 0) : Machine.run 50 s = .next s.hashed :=
  (h.run_eq_execAll (Nat.le_refl 50)).trans (execAll_hashOps s)

end State.AtIndex

/-- Settles O38: the step of the `START` leads to index 0, the run from there is at index `k` after `k` steps, and its 50
micro-ops compute the hash of the latched input. -/
theorem hashProgComputesHash : Obligations.HashProgComputesHash := by
  intro s data hrom hs hh
  have h0 : (State.hostStart { s with host := [] } data).AtIndex 0 :=
    .of_hostStart (s := { s with host := [] }) hrom rfl hs data
  have hrun (k : Nat) := run_succ k (step_of_start hh)
  refine ⟨fun k hk => ?_, _, (hrun 50).trans h0.run_to_hashed, ?_⟩
  · obtain ⟨t, ht, hat⟩ := h0.run (k := k) (by omega)
    exact ⟨t, (hrun k).trans ht, hat.busy, hat.upc.trans (Nat.zero_add k)⟩
  · rw [State.hostReadDG_hashed, State.hostStart_accepted { s with host := [] } data hs]
    exact ⟨rfl, rfl, rfl, allHeld_tabulate _, allHeld_tabulate _, allHeld_tabulate _, allHeld_tabulate _, rfl⟩

end Sys2Proof.Machine

/-! # Proofs: the exception (60_exceptions.md)

`IllegalUop` is taken where the fetch at `UPC` gives no legal micro-op. Both causes of R171 are brought to that one condition
by `State.due?_eq_none`, and the step there is known (`step_of_none_due`, `step_of_none_due_after_pass`). -/

namespace Sys2Proof.Machine

variable {s t : State}

/-! ### The entry (R171, R172) -/

/-- No legal micro-op is due past the end of the ROM or at an illegal word. -/
theorem State.due?_eq_none (h : s.cfg.uprog[s.upc.toNat]? = none ∨
    ∃ w r, s.cfg.uprog[s.upc.toNat]? = some w ∧ decode w = .illegal r) : s.due? = none := by
  refine Option.eq_none_iff_forall_ne_some.mpr fun i hi => ?_
  obtain ⟨w', hw', hlegal⟩ := State.due?_eq_some hi
  obtain hnone | ⟨w, r, hw, hill⟩ := h
  · simp [hnone] at hw'
  · obtain rfl : w = w' := Option.some.inj (hw.symm.trans hw')
    simp [hill] at hlegal

/-- With a `pass` due the exception is taken too, and the move is off the host's list (log 7). -/
theorem step_of_none_due_after_pass {rest : List HostMove} (hb : s.status = .busy) (hh : s.host = .pass :: rest)
    (hd : s.due? = none) : step s = .next (State.takeIllegalUop { s with host := rest }) := by
  have hdue : State.due? { s with host := rest } = none := (State.due?_congr rfl rfl).trans hd
  rw [step_of_pass hh, coreStep_busy (s := { s with host := rest }) hb, sequencerStep_illegal hdue]

/-- Settles O55: neither cause leaves a legal micro-op due. -/
theorem takingIllegalUopAfterPass : Obligations.TakingIllegalUopAfterPass :=
  fun _ _ hb hh hbad => step_of_none_due_after_pass hb hh (State.due?_eq_none hbad)

/-- Settles O7: at `UPC = NUOP` there is no word, and the entry leaves `UPC`. -/
theorem fetchPastTheEndFaults : Obligations.FetchPastTheEndFaults := by
  intro s hb hh hu
  have hfetch : s.cfg.uprog[s.upc.toNat]? = none := List.getElem?_eq_none hu.ge
  exact ⟨s.takeIllegalUop, step_of_none_due hb hh (State.due?_eq_none (.inl hfetch)), rfl, rfl, hu, rfl⟩

/-! ### `ERROR` is sticky (R172) -/

/-- A step of the core in `ERROR` goes on only by resting. -/
theorem coreStep_error (he : s.status = .error) (h : coreStep s = .next t) : t = s := by
  rw [coreStep_not_busy (by simp [he])] at h
  exact State.restStep_next _ _ h

/-- In `ERROR` only a `RESET` changes more than the host's list: a `START` is ignored, and the core has no step. -/
theorem step_error_sticky (he : s.status = .error) (hreset : ∀ rest, s.host ≠ .reset :: rest)
    (h : step s = .next t) : t = { s with host := s.host.tail } := by
  obtain ⟨data, rest, hh, rfl⟩ | ⟨rest, hh, -⟩ | ⟨rest, hh, hc⟩ | ⟨hh, hc⟩ := step_next h
  · rw [State.hostStart_ignored { s with host := rest } data (.inr he), hh, List.tail_cons]
  · exact absurd hh (hreset rest)
  · rw [coreStep_error (s := { s with host := rest }) he hc, hh, List.tail_cons]
  · rw [coreStep_stuck he hh] at hc
    cases hc

/-- Settles O6: the entry with a host that does nothing, the stickiness of `ERROR`, and a digest readable in `DONE` only. -/
theorem takingIllegalUop : Obligations.TakingIllegalUop := by
  obtain ⟨readDG_of_not_done, -⟩ := hostReads
  exact ⟨fun _ hb hh hbad => step_of_none_due hb hh (State.due?_eq_none hbad),
    fun _ _ => step_error_sticky,
    fun s he => readDG_of_not_done s (by simp [he])⟩

end Sys2Proof.Machine

/-! # Proofs: reset (70_reset_and_hazards.md) -/

namespace Sys2Proof.Machine

variable {s t : State}

/-- What takes the core out of `ERROR` is a `RESET` due (R172). -/
theorem reset_due_of_leaves_error (he : s.status = .error) (h : step s = .next t) (hne : t.status ≠ .error) :
    ∃ rest, s.host = .reset :: rest := by
  by_contra hno
  have hstay : t = { s with host := s.host.tail } := step_error_sticky he (not_exists.mp hno) h
  exact hne (by rw [hstay]; exact he)

/-- Settles O27: the step of a `RESET` is `hostReset` whatever the `STATUS`, and without one `ERROR` is sticky. -/
theorem resetFromAnyStatus : Obligations.ResetFromAnyStatus :=
  ⟨fun _ _ hh => ⟨_, step_of_reset hh, rfl, rfl, rfl, rfl,
      noneHeld_free _, noneHeld_free _, noneHeld_free _, noneHeld_free _, noneHeld_free _, rfl, rfl⟩,
    fun _ _ => reset_due_of_leaves_error⟩

end Sys2Proof.Machine
